-- ==== Sys2Proof/Word.lean ====
section
/-! DEFINITION. The two word sizes of the rust-nes CORE (R6 in 00_scope.md): data is 8 bits wide,
addresses are 16 bits wide. All values are unsigned (R8). -/

namespace Sys2Proof

/-- A byte: 8 bits (R8). -/
abbrev Byte := BitVec 8

/-- A word: 16 bits, an address or the program counter (R8). -/
abbrev Word := BitVec 16

end Sys2Proof
end

