-- ==== Sys2Proof/Syntax.lean ====
section
/-! DEFINITION. The closed sets of instruction kinds (R52 in 30_encoding.md) and addressing-mode tags
(R54), and the instructions: one constructor for each row of spec/opcode_table.json (R57). -/

namespace Sys2Proof

/-- The six instruction kinds (R52). The set is closed: an entry without a meaning cannot be written
down (90_conflicts.md C2). -/
inductive Kind where
  | lda | sta | tax | tay | inx | brk
  deriving DecidableEq, Repr

/-- The ten addressing-mode tags (R54). -/
inductive Mode where
  | immediate | zeroPage | zeroPageX | zeroPageY
  | absolute | absoluteX | absoluteY
  | indirectX | indirectY | noneAddressing
  deriving DecidableEq, Repr

/-- The number of operand bytes a mode reads after the opcode byte (the table of R54). -/
def Mode.opBytes : Mode → Nat
  | .immediate => 1
  | .zeroPage => 1
  | .zeroPageX => 1
  | .zeroPageY => 1
  | .absolute => 2
  | .absoluteX => 2
  | .absoluteY => 2
  | .indirectX => 1
  | .indirectY => 1
  | .noneAddressing => 0

/-- The instructions, in the order of spec/opcode_table.json. `d8` is the operand byte of format F2,
`a16` the operand word of format F3 (R50). -/
inductive Instr where
  | brk
  | staIndX (d8 : Byte)
  | staZp (d8 : Byte)
  | staAbs (a16 : Word)
  | staIndY (d8 : Byte)
  | staZpX (d8 : Byte)
  | staAbsY (a16 : Word)
  | staAbsX (a16 : Word)
  | ldaIndX (d8 : Byte)
  | ldaZp (d8 : Byte)
  | tay
  | ldaImm (d8 : Byte)
  | tax
  | ldaAbs (a16 : Word)
  | ldaIndY (d8 : Byte)
  | ldaZpX (d8 : Byte)
  | ldaAbsY (a16 : Word)
  | ldaAbsX (a16 : Word)
  | inx
  deriving DecidableEq, Repr

/-- The kind of an instruction (column "kind" of R57). -/
def Instr.kind : Instr → Kind
  | .brk => .brk
  | .staIndX _ | .staZp _ | .staAbs _ | .staIndY _ | .staZpX _ | .staAbsY _ | .staAbsX _ => .sta
  | .ldaIndX _ | .ldaZp _ | .ldaImm _ | .ldaAbs _ | .ldaIndY _ | .ldaZpX _ | .ldaAbsY _ | .ldaAbsX _ => .lda
  | .tay => .tay
  | .tax => .tax
  | .inx => .inx

/-- The addressing mode of an instruction (column "mode" of R57). -/
def Instr.mode : Instr → Mode
  | .brk | .tay | .tax | .inx => .noneAddressing
  | .ldaImm _ => .immediate
  | .staZp _ | .ldaZp _ => .zeroPage
  | .staZpX _ | .ldaZpX _ => .zeroPageX
  | .staAbs _ | .ldaAbs _ => .absolute
  | .staAbsX _ | .ldaAbsX _ => .absoluteX
  | .staAbsY _ | .ldaAbsY _ => .absoluteY
  | .staIndX _ | .ldaIndX _ => .indirectX
  | .staIndY _ | .ldaIndY _ => .indirectY

end Sys2Proof
end

