-- ==== Sys2Proof/Config.lean ====
section
/-! DEFINITION. The configuration record CFG (R5 in 00_scope.md): what is fixed for one machine and is
not state (R22 in 10_state.md). The values CFG_OBSERVED and REG_CANON stand in Decode.lean.
This spec leaves no value open after an instruction, so there is no free value here. -/

namespace Sys2Proof

/-- An instruction length in bytes, 1 to 3, the opcode byte included (R50, R53). -/
inductive InstrLen where
  | one | two | three
  deriving DecidableEq, Repr

/-- The length as a number of bytes. -/
def InstrLen.bytes : InstrLen → Nat
  | .one => 1
  | .two => 2
  | .three => 3

/-- `e.len - 1`: the operand bytes LDA and STA skip (R89). -/
def InstrLen.skip : InstrLen → Word
  | .one => 0
  | .two => 1
  | .three => 2

/-- One entry of the opcode registry (R53). `cycles` is recorded and read by no rule (R63). -/
structure OpcodeEntry where
  kind : Kind
  len : InstrLen
  cycles : Nat
  mode : Mode
  deriving DecidableEq, Repr

/-- The opcode registry: an ordered list of entries, each under its opcode byte (R56). -/
abbrev Registry := List (Byte × OpcodeEntry)

/-- The two admitted memory sizes (R5, R32; 92_eei_decisions.md D1). -/
inductive MemSize where
  | observed
  | full
  deriving DecidableEq, Repr

/-- MEM_SIZE: the number of bytes of memory. -/
def MemSize.bytes : MemSize → Nat
  | .observed => 0xFFFF
  | .full => 0x10000

/-- TAY_FLAG_SOURCE: the register TAY computes the flags from (R5; D6). -/
inductive FlagSource where
  | fromX
  | fromY
  deriving DecidableEq, Repr

/-- The configuration record CFG (R5). -/
structure Config where
  memSize : MemSize
  registry : Registry
  tayFlagSource : FlagSource
  deriving DecidableEq, Repr

end Sys2Proof
end

