-- ==== Sys2Proof/WellFormed.lean ====
section
/-! DEFINITION. Well-formedness: of a registry entry and of a registry (R55, R56 in 30_encoding.md),
and of an instruction against a registry. The operand fields of Instr are bit vectors of the format's
own width, so no operand value is ill-formed ("Operand bytes are never illegal", R59). -/

namespace Sys2Proof

/-- R55 for one entry: (a) the length is one plus the mode's operand bytes; (b) LDA and STA have a mode
with an operand; (c) the other kinds have none. -/
def OpcodeEntry.wf (e : OpcodeEntry) : Bool :=
  e.len.bytes == 1 + e.mode.opBytes &&
    match e.kind with
    | .lda | .sta => e.mode != .noneAddressing
    | .tax | .tay | .inx | .brk => e.mode == .noneAddressing

/-- A registry is well-formed (WF) when every entry is (R55). -/
def Registry.wf (r : Registry) : Bool := r.all fun p => p.2.wf

/-- A registry "contains at most one entry per opcode byte" (R56). -/
def Registry.uniqueKeys : Registry → Bool
  | [] => true
  | p :: r => r.all (fun q => q.1 != p.1) && Registry.uniqueKeys r

/-- An instruction is well-formed for a registry that has a well-formed entry of its kind and mode:
only then is there a byte that stands for it (R53, R57). -/
def Instr.wf (r : Registry) (i : Instr) : Bool :=
  r.any fun p => p.2.kind == i.kind && p.2.mode == i.mode && p.2.wf

end Sys2Proof
end

