-- ==== Sys2Proof/Decode.lean ====
section
/-! DEFINITION. Decoding and encoding (30_encoding.md): the canonical registry REG_CANON (R57), the
registry lookup (R56), the observed configuration (R5), the decoder, total on any bytes and rejecting by
name, and after it the encoder, written from the "encoding" column of spec/opcode_table.json.
The opcode bytes, lengths, cycles and pairings of kind with mode are the spec's general knowledge
(PRESUMED, log 2). -/

namespace Sys2Proof

/-! ### Bytes and words (R8) -/

/-- The word with high byte `hi` and low byte `lo`: `hi:lo`. -/
def joinBytes (hi lo : Byte) : Word := hi ++ lo

/-- `w[7:0]`. -/
def loByte (w : Word) : Byte := w.extractLsb' 0 8

/-- `w[15:8]`. -/
def hiByte (w : Word) : Byte := w.extractLsb' 8 8

/-- `zext_16`: the byte as a word with the high byte zero; nothing is ever sign-extended. -/
def zext16 (b : Byte) : Word := b.setWidth 16

/-! ### The registry -/

/-- `REGISTRY(b)`: lookup by equality of the opcode byte (R56). With two entries under one byte, which
R56 excludes, the first is taken (log 18). -/
def lookup : Registry → Byte → Option OpcodeEntry
  | [], _ => none
  | (k, e) :: r, b => if k = b then some e else lookup r b

/-- REG_CANON, first part: BRK and STA (R57). -/
def regCanonStores : Registry :=
  [ (0x00, ⟨.brk, .one, 7, .noneAddressing⟩),
    (0x81, ⟨.sta, .two, 6, .indirectX⟩),
    (0x85, ⟨.sta, .two, 3, .zeroPage⟩),
    (0x8D, ⟨.sta, .three, 4, .absolute⟩),
    (0x91, ⟨.sta, .two, 6, .indirectY⟩),
    (0x95, ⟨.sta, .two, 4, .zeroPageX⟩),
    (0x99, ⟨.sta, .three, 5, .absoluteY⟩),
    (0x9D, ⟨.sta, .three, 5, .absoluteX⟩) ]

/-- REG_CANON, second part: LDA, TAY, TAX and INX (R57). -/
def regCanonLoads : Registry :=
  [ (0xA1, ⟨.lda, .two, 6, .indirectX⟩),
    (0xA5, ⟨.lda, .two, 3, .zeroPage⟩),
    (0xA8, ⟨.tay, .one, 2, .noneAddressing⟩),
    (0xA9, ⟨.lda, .two, 2, .immediate⟩),
    (0xAA, ⟨.tax, .one, 2, .noneAddressing⟩),
    (0xAD, ⟨.lda, .three, 4, .absolute⟩),
    (0xB1, ⟨.lda, .two, 5, .indirectY⟩),
    (0xB5, ⟨.lda, .two, 4, .zeroPageX⟩),
    (0xB9, ⟨.lda, .three, 4, .absoluteY⟩),
    (0xBD, ⟨.lda, .three, 4, .absoluteX⟩),
    (0xE8, ⟨.inx, .one, 2, .noneAddressing⟩) ]

/-- REG_CANON: the canonical registry, 19 entries (R57; PRESUMED, log 2). -/
def regCanon : Registry := regCanonStores ++ regCanonLoads

/-- CFG_OBSERVED: the configuration that reproduces the behaviour recorded as observed (R5), and the one
`exec` and `step` are stated for (log 1). -/
def cfgObserved : Config := ⟨.observed, regCanon, .fromX⟩

/-- CFG_OBSERVED with the flagged alternative memory size (R5; D1). -/
def cfgFullMemory : Config := { cfgObserved with memSize := .full }

/-- CFG_OBSERVED with TAY's flags taken from Y (R5; D6). -/
def cfgTayFromY : Config := { cfgObserved with tayFlagSource := .fromY }

/-! ### The decoder -/

/-- Why bytes are not an instruction. -/
inductive DecodeError where
  /-- There is no byte at all. -/
  | noByte
  /-- The opcode byte has no registry entry: illegal (R59). -/
  | unimplementedOpcode (b : Byte)
  /-- The entry's operand bytes are not all there. -/
  | missingOperand (b : Byte)
  /-- The entry pairs a kind with a mode that no row of the table has (impossible in REG_CANON). -/
  | noSuchForm (b : Byte)
  deriving DecidableEq, Repr

/-- The instruction of an entry's kind and mode whose operand bytes begin `rest`, with the bytes that
follow it (R50, R58: in format F3 the low byte comes first). -/
def assemble (op : Byte) (e : OpcodeEntry) (rest : List Byte) : Except DecodeError (Instr × List Byte) :=
  match e.kind, e.mode, rest with
  | .brk, .noneAddressing, r => .ok (.brk, r)
  | .tay, .noneAddressing, r => .ok (.tay, r)
  | .tax, .noneAddressing, r => .ok (.tax, r)
  | .inx, .noneAddressing, r => .ok (.inx, r)
  | .sta, .indirectX, d :: r => .ok (.staIndX d, r)
  | .sta, .zeroPage, d :: r => .ok (.staZp d, r)
  | .sta, .absolute, l :: h :: r => .ok (.staAbs (joinBytes h l), r)
  | .sta, .indirectY, d :: r => .ok (.staIndY d, r)
  | .sta, .zeroPageX, d :: r => .ok (.staZpX d, r)
  | .sta, .absoluteY, l :: h :: r => .ok (.staAbsY (joinBytes h l), r)
  | .sta, .absoluteX, l :: h :: r => .ok (.staAbsX (joinBytes h l), r)
  | .lda, .indirectX, d :: r => .ok (.ldaIndX d, r)
  | .lda, .zeroPage, d :: r => .ok (.ldaZp d, r)
  | .lda, .immediate, d :: r => .ok (.ldaImm d, r)
  | .lda, .absolute, l :: h :: r => .ok (.ldaAbs (joinBytes h l), r)
  | .lda, .indirectY, d :: r => .ok (.ldaIndY d, r)
  | .lda, .zeroPageX, d :: r => .ok (.ldaZpX d, r)
  | .lda, .absoluteY, l :: h :: r => .ok (.ldaAbsY (joinBytes h l), r)
  | .lda, .absoluteX, l :: h :: r => .ok (.ldaAbsX (joinBytes h l), r)
  | _, _, r => if r.length < e.mode.opBytes then .error (.missingOperand op) else .error (.noSuchForm op)

/-- The decoder: the registry says from the opcode byte alone how to read the bytes (R51, R56); what no
entry covers is rejected by name (R59). -/
def decode : List Byte → Except DecodeError (Instr × List Byte)
  | [] => .error .noByte
  | op :: rest =>
    match lookup regCanon op with
    | none => .error (.unimplementedOpcode op)
    | some e => assemble op e rest

/-! ### The encoder -/

/-- The opcode byte of each instruction: byte 0 of the "encoding" column of spec/opcode_table.json,
written out in bits as the table has it. -/
def opcode : Instr → Byte
  | .brk       => 0b00000000
  | .staIndX _ => 0b10000001
  | .staZp _   => 0b10000101
  | .staAbs _  => 0b10001101
  | .staIndY _ => 0b10010001
  | .staZpX _  => 0b10010101
  | .staAbsY _ => 0b10011001
  | .staAbsX _ => 0b10011101
  | .ldaIndX _ => 0b10100001
  | .ldaZp _   => 0b10100101
  | .tay       => 0b10101000
  | .ldaImm _  => 0b10101001
  | .tax       => 0b10101010
  | .ldaAbs _  => 0b10101101
  | .ldaIndY _ => 0b10110001
  | .ldaZpX _  => 0b10110101
  | .ldaAbsY _ => 0b10111001
  | .ldaAbsX _ => 0b10111101
  | .inx       => 0b11101000

/-- The operand bytes in ascending address order: format F2 `d8`, format F3 `a16[7:0]` then `a16[15:8]`
(R50). -/
def operands : Instr → List Byte
  | .brk | .tay | .tax | .inx => []
  | .staIndX d | .staZp d | .staIndY d | .staZpX d => [d]
  | .ldaIndX d | .ldaZp d | .ldaImm d | .ldaIndY d | .ldaZpX d => [d]
  | .staAbs w | .staAbsY w | .staAbsX w => [loByte w, hiByte w]
  | .ldaAbs w | .ldaAbsY w | .ldaAbsX w => [loByte w, hiByte w]

/-- The bytes of an instruction in memory, opcode byte first (R37, R50). -/
def encode (i : Instr) : List Byte := opcode i :: operands i

/-! ### The table's numbering -/

/-- The three bytes (the longest instruction) of a number whose bits above `nbits` are taken as 0: the
first byte holds bits 7..0, the second bits 15..8, the third bits 23..16. -/
def tableBytes (nbits w : Nat) : List Byte :=
  let v := w % 2 ^ nbits
  [BitVec.ofNat 8 v, BitVec.ofNat 8 (v / 0x100), BitVec.ofNat 8 (v / 0x10000)]

/-- The instruction the decoder reads from the bytes of an opcode-table word. -/
def decodeTableWord (nbits w : Nat) : Option Instr :=
  match decode (tableBytes nbits w) with
  | .ok (i, _) => some i
  | .error _ => none

end Sys2Proof
end

