-- ==== Sys2Proof/Machine/State.lean ====
section
/-! DEFINITION. The state of the CORE (10_state.md): the tuple (A, X, Y, P, PC, RS, M) and nothing else
(R23), as plain data; the fault kinds (60_exceptions.md); the state at power-on and after reset. -/

namespace Sys2Proof.Machine

/-- The three fault kinds with their datum (R21, R130). A fault is kept in the run state by `raise`
(R134): a step that faults answers a NEXT state whose `rs` is `faulted`. No step and no meaning ends in
`Host.Outcome.fault` (log 3). -/
inductive Fault where
  /-- The fetched byte has no registry entry (R131). Raised by the decode of a step, before PC moves.
  Safe: the spec describes exactly this effect. -/
  | unimplementedOpcode (b : Byte)
  /-- The resolver was given NoneAddressing (R132). Raised inside LDA or STA by an entry that is not
  well-formed, never under REG_CANON. Safe: the spec describes exactly this effect. -/
  | unsupportedAddressingMode
  /-- A byte access at or above MEM_SIZE (R133). Raised by the fetch, an operand read and the data access
  of LDA and STA. Safe: the spec's decision D2 errs toward unprovable (log 8). -/
  | memoryOutOfRange (a : Word)
  deriving DecidableEq, Repr

/-- Why an instruction would have no meaning. -/
inductive Refusal where
  /-- Raised only by an arm of `exec` that has no meaning yet. Safe. Every arm has its meaning, so nothing
  raises it. -/
  | notModelled (mnemonic : String)
  deriving DecidableEq, Repr

/-- RS, the run state (R20); Faulted carries the kind and the datum (R21). -/
inductive RunState where
  | ready
  | running
  | halted
  | faulted (f : Fault)
  deriving DecidableEq, Repr

/-- M: the listed bytes of memory, by address. An address that is not listed reads as 0x00, which is what
every byte holds after power-on (R24). The canonical form is `Memory.wf` in Machine/Ops.lean. -/
abbrev Memory := List Host.Cell

/-- The whole state of the machine (R10, R20, R23, R30). -/
structure State where
  /-- A, the accumulator (R11). -/
  a : Byte
  /-- X, index-X (R12). -/
  x : Byte
  /-- Y, index-Y (R13). -/
  y : Byte
  /-- P, the status register: bit 7 Negative, bit 1 Zero, the others inert storage (R17, R19). -/
  p : Byte
  /-- PC, the program counter (R14). -/
  pc : Word
  /-- RS, the run state with the fault kind and datum (R20, R21). -/
  rs : RunState
  /-- M, the memory (R30). -/
  mem : Memory
  deriving DecidableEq, Repr

/-- Power-on: "all registers and memory zeroed", Ready (R24, R151). -/
def State.powerOn : State :=
  { a := 0, x := 0, y := 0, p := 0, pc := 0, rs := .ready, mem := [] }

/-- The machine right after reset: the `reset` command on a machine just powered on (R24, R153; log 5).
PC is the word at 0xFFFC of a memory that is all zero. -/
def State.reset : State :=
  { a := 0, x := 0, y := 0, p := 0, pc := 0, rs := .running, mem := [] }

end Sys2Proof.Machine
end

