-- ==== Sys2Proof/Machine/Ops.lean ====
section
/-! DEFINITION. The named operations over memory and registers: one byte of memory and its canonical form,
MemRead and MemWrite with their range check (20_memory.md R33 to R36), the one way each register is
written, the advance of PC (R15), and `raise`, the taking of a fault (60_exceptions.md R134). There is no
return from a fault but the host's `reset` command (R138; Machine/HostCommands.lean). -/

namespace Sys2Proof.Machine

/-! ### Memory as data -/

/-- What a byte nothing has written reads as: 0x00 (R24, R42). -/
def unlistedByte : Byte := 0

/-- `M[a]`: one byte of memory. -/
def Memory.read : Memory → Nat → Byte
  | [], _ => unlistedByte
  | (b, w) :: m, a => if b = a then w else Memory.read m a

/-- A listed byte in front of the later ones, left out when it is what an unlisted byte reads as. -/
def Memory.cons (a : Nat) (v : Byte) (m : Memory) : Memory :=
  if v = unlistedByte then m else (a, v) :: m

/-- `M[a] <- v`, keeping the canonical form. -/
def Memory.write : Memory → Nat → Byte → Memory
  | [], a, v => Memory.cons a v []
  | (b, w) :: m, a, v =>
    if a < b then Memory.cons a v ((b, w) :: m)
    else if a = b then Memory.cons a v m
    else (b, w) :: Memory.write m a v

/-- The canonical form from a least address on: addresses strictly rising, no byte listed that an unlisted
address would read as. -/
def Memory.wfFrom : Nat → Memory → Bool
  | _, [] => true
  | lo, (b, w) :: m => decide (lo ≤ b) && decide (w ≠ unlistedByte) && Memory.wfFrom (b + 1) m

/-- The one canonical form of memory: equal memories are equal lists. -/
def Memory.wf (m : Memory) : Bool := Memory.wfFrom 0 m

/-- Every listed address is below `n`. -/
def Memory.below (n : Nat) (m : Memory) : Bool := m.all fun c => decide (c.1 < n)

/-- Consecutive bytes from an address on, in ascending order. -/
def Memory.writeBytes : Memory → Nat → List Byte → Memory
  | m, _, [] => m
  | m, a, b :: bs => Memory.writeBytes (Memory.write m a b) (a + 1) bs

/-! ### The access primitives -/

/-- Whether an address is below MEM_SIZE. -/
def inRange (cfg : Config) (a : Word) : Bool := decide (a.toNat < cfg.memSize.bytes)

/-- `MemRead(a, 1)` (R33). -/
def memRead (cfg : Config) (m : Memory) (a : Word) : Except Fault Byte :=
  if inRange cfg a then .ok (m.read a.toNat) else .error (.memoryOutOfRange a)

/-- `MemWrite(a, 1, v)` (R33): the memory after it, or the fault with memory unchanged. -/
def memWrite (cfg : Config) (m : Memory) (a : Word) (v : Byte) : Except Fault Memory :=
  if inRange cfg a then .ok (m.write a.toNat v) else .error (.memoryOutOfRange a)

/-- `MemRead(a, 2)` (R35): the low byte at `a` first, then the high byte at `(a + 1) mod 65536` (R34). -/
def memRead16 (cfg : Config) (m : Memory) (a : Word) : Except Fault Word :=
  match memRead cfg m a with
  | .error f => .error f
  | .ok lo =>
    match memRead cfg m (a + 1) with
    | .error f => .error f
    | .ok hi => .ok (joinBytes hi lo)

/-- `MemWrite(a, 2, w)` (R36): the low byte first. The second write can fault after the first was made, so a
fault comes with the memory it leaves. -/
def memWrite16 (cfg : Config) (m : Memory) (a w : Word) : Except (Fault × Memory) Memory :=
  match memWrite cfg m a (loByte w) with
  | .error f => .error (f, m)
  | .ok m1 =>
    match memWrite cfg m1 (a + 1) (hiByte w) with
    | .error f => .error (f, m1)
    | .ok m2 => .ok m2

/-! ### Registers -/

/-- `A <- v`. -/
def State.setA (s : State) (v : Byte) : State := { s with a := v }
/-- `X <- v`. -/
def State.setX (s : State) (v : Byte) : State := { s with x := v }
/-- `Y <- v`. -/
def State.setY (s : State) (v : Byte) : State := { s with y := v }
/-- `P <- v`. -/
def State.setP (s : State) (v : Byte) : State := { s with p := v }
/-- `PC <- v`. -/
def State.setPc (s : State) (v : Word) : State := { s with pc := v }
/-- `RS <- r`. -/
def State.setRs (s : State) (r : RunState) : State := { s with rs := r }
/-- The memory after a write. -/
def State.setMem (s : State) (m : Memory) : State := { s with mem := m }

/-- `PC <- (PC + k) mod 65536` (R15). -/
def advance (k : Word) (s : State) : State := s.setPc (s.pc + k)

/-! ### Faults -/

/-- `raise F` (R134): RS is set to Faulted with the kind and datum and the step ends there; nothing is saved
elsewhere and control goes nowhere (R137). -/
def raise (f : Fault) (s : State) : State := s.setRs (.faulted f)

/-- The numeric code of a fault kind (R130). -/
def Fault.code : Fault → Nat
  | .unimplementedOpcode _ => 1
  | .unsupportedAddressingMode => 2
  | .memoryOutOfRange _ => 3

/-- The code of a run state: 0 means no fault (R130). -/
def RunState.faultCode : RunState → Nat
  | .faulted f => f.code
  | .ready | .running | .halted => 0

/-! ### Fixed addresses (R6, R40) -/

/-- Programs are loaded here. -/
def programOrigin : Word := 0x8000

/-- The reset vector: its low byte here, its high byte at the next address. -/
def resetVector : Word := 0xFFFC

end Sys2Proof.Machine
end

