-- ==== Sys2Proof/Machine/Flags.lean ====
section
/-! DEFINITION. The flag-update policy, the one flag computation of the CORE (41_executor.md R90). -/

namespace Sys2Proof.Machine

/-- The z of R90 as a byte: `z << 1`. -/
def zeroBit (v : Byte) : Byte := if v = 0 then 0x02 else 0x00

/-- The n of R90 as a byte: `v[7] << 7`. -/
def negativeBit (v : Byte) : Byte := if v.getLsbD 7 then 0x80 else 0x00

/-- `P <- (P and 0x7D) or (n << 7) or (z << 1)` (R90): the status byte after `SetZN(v)`. -/
def znStatus (p v : Byte) : Byte := (p &&& 0x7D) ||| negativeBit v ||| zeroBit v

/-- `SetZN(v)` (R90, R91). -/
def setZN (v : Byte) (s : State) : State := s.setP (znStatus s.p v)

/-- `P.Z`, bit 1 (R17). -/
def State.zero (s : State) : Bool := s.p.getLsbD 1

/-- `P.N`, bit 7 (R17). -/
def State.negative (s : State) : Bool := s.p.getLsbD 7

end Sys2Proof.Machine
end

