-- ==== Sys2Proof/Machine/Operands.lean ====
section
/-! DEFINITION. The Address Resolver (40_addressing_modes.md): the effective address of each operand form,
then `Resolve`, which reads the operand bytes at `pc1` and computes the address of any mode tag
(R70 to R80). Nothing here writes a register or memory. -/

namespace Sys2Proof.Machine

/-! ### The effective address from the operand -/

/-- ZeroPage: the operand byte zero-extended (R72). -/
def eaZeroPage (d8 : Byte) : Word := zext16 d8

/-- ZeroPage_X and ZeroPage_Y: `zext_16((d8 + index) mod 256)` (R73, R74). -/
def eaZeroPageIndexed (d8 index : Byte) : Word := zext16 (d8 + index)

/-- Absolute: the operand word (R75). -/
def eaAbsolute (a16 : Word) : Word := a16

/-- Absolute_X and Absolute_Y: `(base + zext_16(index)) mod 65536` (R76, R77). -/
def eaAbsoluteIndexed (base : Word) (index : Byte) : Word := base + zext16 index

/-- The two bytes of a zero-page pointer, low byte first; the high byte is at `(ptr + 1) mod 256`, inside
the zero page (R78, R79; 90_conflicts.md C6). -/
def readPointer (cfg : Config) (m : Memory) (ptr : Byte) : Except Fault Word :=
  match memRead cfg m (zext16 ptr) with
  | .error f => .error f
  | .ok lo =>
    match memRead cfg m (zext16 (ptr + 1)) with
    | .error f => .error f
    | .ok hi => .ok (joinBytes hi lo)

/-- Indirect_X: the pointer is at `(d8 + X) mod 256`; nothing is added after it is fetched (R78). -/
def eaIndirectX (cfg : Config) (m : Memory) (d8 x : Byte) : Except Fault Word :=
  readPointer cfg m (d8 + x)

/-- Indirect_Y: the pointer is at `d8`; Y is added to the 16-bit base (R79). -/
def eaIndirectY (cfg : Config) (m : Memory) (d8 y : Byte) : Except Fault Word :=
  match readPointer cfg m d8 with
  | .error f => .error f
  | .ok base => .ok (eaAbsoluteIndexed base y)

/-! ### The resolver -/

/-- A mode whose operand is the byte at `pc1`. -/
def withByteOperand (cfg : Config) (m : Memory) (pc1 : Word) (k : Byte → Except Fault Word) :
    Except Fault Word :=
  match memRead cfg m pc1 with
  | .error f => .error f
  | .ok d8 => k d8

/-- A mode whose operand is the word at `pc1`. -/
def withWordOperand (cfg : Config) (m : Memory) (pc1 : Word) (k : Word → Except Fault Word) :
    Except Fault Word :=
  match memRead16 cfg m pc1 with
  | .error f => .error f
  | .ok a16 => k a16

/-- `Resolve(mode, pc1, X, Y)` (R70): the effective address, or the first fault met. `pc1` is the address of
the first operand byte. -/
def resolve (cfg : Config) (m : Memory) (mode : Mode) (pc1 : Word) (x y : Byte) : Except Fault Word :=
  match mode with
  | .immediate => .ok pc1
  | .zeroPage => withByteOperand cfg m pc1 fun d8 => .ok (eaZeroPage d8)
  | .zeroPageX => withByteOperand cfg m pc1 fun d8 => .ok (eaZeroPageIndexed d8 x)
  | .zeroPageY => withByteOperand cfg m pc1 fun d8 => .ok (eaZeroPageIndexed d8 y)
  | .absolute => withWordOperand cfg m pc1 fun a16 => .ok (eaAbsolute a16)
  | .absoluteX => withWordOperand cfg m pc1 fun a16 => .ok (eaAbsoluteIndexed a16 x)
  | .absoluteY => withWordOperand cfg m pc1 fun a16 => .ok (eaAbsoluteIndexed a16 y)
  | .indirectX => withByteOperand cfg m pc1 fun d8 => eaIndirectX cfg m d8 x
  | .indirectY => withByteOperand cfg m pc1 fun d8 => eaIndirectY cfg m d8 y
  | .noneAddressing => .error .unsupportedAddressingMode

end Sys2Proof.Machine
end

