-- ==== Sys2Proof/Machine/Halt.lean ====
section
/-! DEFINITION. Halt (45_halt.md R125): BRK sets RS to Halted and does nothing else (R126). -/

namespace Sys2Proof.Machine

/-- `RS <- Halted` (R125). -/
def brk (s : State) : State := s.setRs .halted

/-- `BRK` (R125): its own effect is the halt, which is a next state. -/
def execBrk (s : State) : Host.Outcome State Fault Refusal := .next (brk s)

end Sys2Proof.Machine
end

