-- ==== Sys2Proof/Machine/Load.lean ====
section
/-! DEFINITION. Load accumulator (42_load_accumulator.md): the kind for any entry (R100) and the eight LDA
instructions (R101 to R108). On entry PC is `pc1`, the address of the first operand byte (R88). -/

namespace Sys2Proof.Machine

/-- The part of LDA after the data byte is read: `A <- v; SetZN(A); PC <- PC + len - 1` (R100). -/
def loadA (v : Byte) (len : InstrLen) (s : State) : State :=
  advance len.skip (setZN v (s.setA v))

/-- LDA from an effective address, or from the fault the resolver met (R100). -/
def lda (cfg : Config) (ea : Except Fault Word) (len : InstrLen) (s : State) : State :=
  match ea with
  | .error f => raise f s
  | .ok a =>
    match memRead cfg s.mem a with
    | .error f => raise f s
    | .ok v => loadA v len s

/-- `LDA #$nn` (R101): the operand byte is the value. The byte at `pc1` is the instruction's own `d8`
(log 11). -/
def execLdaImm (d8 : Byte) (s : State) : Host.Outcome State Fault Refusal :=
  .next (loadA d8 .two s)

/-- `LDA $nn` (R102). -/
def execLdaZp (d8 : Byte) (s : State) : Host.Outcome State Fault Refusal :=
  .next (lda cfgObserved (.ok (eaZeroPage d8)) .two s)

/-- `LDA $nn,X` (R103). -/
def execLdaZpX (d8 : Byte) (s : State) : Host.Outcome State Fault Refusal :=
  .next (lda cfgObserved (.ok (eaZeroPageIndexed d8 s.x)) .two s)

/-- `LDA $nnnn` (R104). -/
def execLdaAbs (a16 : Word) (s : State) : Host.Outcome State Fault Refusal :=
  .next (lda cfgObserved (.ok (eaAbsolute a16)) .three s)

/-- `LDA $nnnn,X` (R105). -/
def execLdaAbsX (a16 : Word) (s : State) : Host.Outcome State Fault Refusal :=
  .next (lda cfgObserved (.ok (eaAbsoluteIndexed a16 s.x)) .three s)

/-- `LDA $nnnn,Y` (R106). -/
def execLdaAbsY (a16 : Word) (s : State) : Host.Outcome State Fault Refusal :=
  .next (lda cfgObserved (.ok (eaAbsoluteIndexed a16 s.y)) .three s)

/-- `LDA ($nn,X)` (R107). -/
def execLdaIndX (d8 : Byte) (s : State) : Host.Outcome State Fault Refusal :=
  .next (lda cfgObserved (eaIndirectX cfgObserved s.mem d8 s.x) .two s)

/-- `LDA ($nn),Y` (R108). -/
def execLdaIndY (d8 : Byte) (s : State) : Host.Outcome State Fault Refusal :=
  .next (lda cfgObserved (eaIndirectY cfgObserved s.mem d8 s.y) .two s)

end Sys2Proof.Machine
end

