-- ==== Sys2Proof/Machine/RegisterOps.lean ====
section
/-! DEFINITION. The register operations TAX, TAY and INX (44_register_ops.md R120 to R122). PC has been
advanced past the opcode byte and is not changed again. -/

namespace Sys2Proof.Machine

/-- `X <- A; SetZN(X)` (R120). -/
def tax (s : State) : State := setZN s.a (s.setX s.a)

/-- `Y <- A`, then SetZN of the configured register (R121). -/
def tay (cfg : Config) (s : State) : State :=
  match cfg.tayFlagSource with
  | .fromX => setZN s.x (s.setY s.a)
  | .fromY => setZN s.a (s.setY s.a)

/-- `X <- (X + 1) mod 256; SetZN(X)` (R122). -/
def inx (s : State) : State := setZN (s.x + 1) (s.setX (s.x + 1))

/-- `TAX` (R120). -/
def execTax (s : State) : Host.Outcome State Fault Refusal := .next (tax s)

/-- `TAY` (R121), with the flags from X as observed (log 9). -/
def execTay (s : State) : Host.Outcome State Fault Refusal := .next (tay cfgObserved s)

/-- `INX` (R122). -/
def execInx (s : State) : Host.Outcome State Fault Refusal := .next (inx s)

end Sys2Proof.Machine
end

