-- ==== Sys2Proof/Machine/Store.lean ====
section
/-! DEFINITION. Store accumulator (43_store_accumulator.md): the kind for any entry (R110) and the seven STA
instructions (R111 to R117). On entry PC is `pc1` (R88). No flag changes (R91). -/

namespace Sys2Proof.Machine

/-- STA to an effective address, or from the fault the resolver met (R110). -/
def sta (cfg : Config) (ea : Except Fault Word) (len : InstrLen) (s : State) : State :=
  match ea with
  | .error f => raise f s
  | .ok a =>
    match memWrite cfg s.mem a s.a with
    | .error f => raise f s
    | .ok m => advance len.skip (s.setMem m)

/-- `STA $nn` (R111). -/
def execStaZp (d8 : Byte) (s : State) : Host.Outcome State Fault Refusal :=
  .next (sta cfgObserved (.ok (eaZeroPage d8)) .two s)

/-- `STA $nn,X` (R112). -/
def execStaZpX (d8 : Byte) (s : State) : Host.Outcome State Fault Refusal :=
  .next (sta cfgObserved (.ok (eaZeroPageIndexed d8 s.x)) .two s)

/-- `STA $nnnn` (R113). -/
def execStaAbs (a16 : Word) (s : State) : Host.Outcome State Fault Refusal :=
  .next (sta cfgObserved (.ok (eaAbsolute a16)) .three s)

/-- `STA $nnnn,X` (R114). -/
def execStaAbsX (a16 : Word) (s : State) : Host.Outcome State Fault Refusal :=
  .next (sta cfgObserved (.ok (eaAbsoluteIndexed a16 s.x)) .three s)

/-- `STA $nnnn,Y` (R115). -/
def execStaAbsY (a16 : Word) (s : State) : Host.Outcome State Fault Refusal :=
  .next (sta cfgObserved (.ok (eaAbsoluteIndexed a16 s.y)) .three s)

/-- `STA ($nn,X)` (R116). -/
def execStaIndX (d8 : Byte) (s : State) : Host.Outcome State Fault Refusal :=
  .next (sta cfgObserved (eaIndirectX cfgObserved s.mem d8 s.x) .two s)

/-- `STA ($nn),Y` (R117). -/
def execStaIndY (d8 : Byte) (s : State) : Host.Outcome State Fault Refusal :=
  .next (sta cfgObserved (eaIndirectY cfgObserved s.mem d8 s.y) .two s)

end Sys2Proof.Machine
end

