-- ==== Sys2Proof/Machine/Dispatch.lean ====
section
/-! DEFINITION. One arm per instruction, each one direct call of its meaning, at a state whose PC is one past
the opcode byte (41_executor.md R85, R88, R92). -/

namespace Sys2Proof.Machine

def exec (i : Instr) (s : State) : Host.Outcome State Fault Refusal :=
  match i with
  | .brk => Sys2Proof.Machine.execBrk s
  | .staIndX d8 => Sys2Proof.Machine.execStaIndX d8 s
  | .staZp d8 => Sys2Proof.Machine.execStaZp d8 s
  | .staAbs a16 => Sys2Proof.Machine.execStaAbs a16 s
  | .staIndY d8 => Sys2Proof.Machine.execStaIndY d8 s
  | .staZpX d8 => Sys2Proof.Machine.execStaZpX d8 s
  | .staAbsY a16 => Sys2Proof.Machine.execStaAbsY a16 s
  | .staAbsX a16 => Sys2Proof.Machine.execStaAbsX a16 s
  | .ldaIndX d8 => Sys2Proof.Machine.execLdaIndX d8 s
  | .ldaZp d8 => Sys2Proof.Machine.execLdaZp d8 s
  | .tay => Sys2Proof.Machine.execTay s
  | .ldaImm d8 => Sys2Proof.Machine.execLdaImm d8 s
  | .tax => Sys2Proof.Machine.execTax s
  | .ldaAbs a16 => Sys2Proof.Machine.execLdaAbs a16 s
  | .ldaIndY d8 => Sys2Proof.Machine.execLdaIndY d8 s
  | .ldaZpX d8 => Sys2Proof.Machine.execLdaZpX d8 s
  | .ldaAbsY a16 => Sys2Proof.Machine.execLdaAbsY a16 s
  | .ldaAbsX a16 => Sys2Proof.Machine.execLdaAbsX a16 s
  | .inx => Sys2Proof.Machine.execInx s

end Sys2Proof.Machine
end

