-- ==== Sys2Proof/Machine/Fetch.lean ====
section
/-! DEFINITION. Fetching an instruction at PC under CFG_OBSERVED (41_executor.md R85 to R88): the opcode byte,
its registry entry, the advance of PC past it, the operand bytes the mode needs, and the decoder. Also the
placing of an instruction where the next step fetches it (log 6). -/

namespace Sys2Proof.Machine

/-- What the beginning of a step comes to. -/
inductive Fetched where
  /-- The CORE is not Running: no step is taken (R146, R156). -/
  | idle
  /-- A fault before the instruction was whole; the state it leaves. -/
  | stopped (t : State)
  /-- The instruction, and the state with PC one past its opcode byte. -/
  | ready (i : Instr) (t : State)
  deriving DecidableEq, Repr

/-- The operand bytes a mode reads at `pc1`, low byte first, or the first fault met (R54, R135). -/
def operandBytes (cfg : Config) (m : Memory) (mode : Mode) (pc1 : Word) : Except Fault (List Byte) :=
  match mode.opBytes with
  | 0 => .ok []
  | 1 =>
    match memRead cfg m pc1 with
    | .error f => .error f
    | .ok d8 => .ok [d8]
  | _ =>
    match memRead cfg m pc1 with
    | .error f => .error f
    | .ok lo =>
      match memRead cfg m (pc1 + 1) with
      | .error f => .error f
      | .ok hi => .ok [lo, hi]

/-- Fetch and decode at PC (R86 to R88). A miss in the registry is found before PC moves (R87); every later
fault leaves PC one past the opcode byte (R94). -/
def fetch (s : State) : Fetched :=
  match s.rs with
  | .ready | .halted | .faulted _ => .idle
  | .running =>
    match memRead cfgObserved s.mem s.pc with
    | .error f => .stopped (raise f s)
    | .ok op =>
      match lookup cfgObserved.registry op with
      | none => .stopped (raise (.unimplementedOpcode op) s)
      | some e =>
        match operandBytes cfgObserved s.mem e.mode (s.pc + 1) with
        | .error f => .stopped (raise f (advance 1 s))
        | .ok bytes =>
          match decode (op :: bytes) with
          | .ok (i, _) => .ready i (advance 1 s)
          -- No entry of REG_CANON comes here; a byte without a meaning is a byte without an entry (D14).
          | .error _ => .stopped (raise (.unimplementedOpcode op) s)

/-- Where the next step fetches an instruction of up to three bytes: PC, or the program origin when fewer
than three bytes of memory are left from PC on (log 6). -/
def fetchAddress (pc : Word) : Word :=
  if pc.toNat + 3 ≤ cfgObserved.memSize.bytes then pc else programOrigin

/-- The state with the given bytes where the next step fetches, the CORE Running (log 6): the host's `write`
commands and a running machine, as in 70_reset_and_hazards.md R157 to R159. -/
def placeAtFetch (s : State) (bytes : List Byte) : State :=
  { s with
    pc := fetchAddress s.pc
    rs := .running
    mem := Memory.writeBytes s.mem (fetchAddress s.pc).toNat bytes }

end Sys2Proof.Machine
end

