-- ==== Sys2Proof/Machine/Step.lean ====
section
/-! DEFINITION. One step of the machine under CFG_OBSERVED (41_executor.md R85), and the placing of an
instruction where the next step fetches it. -/

namespace Sys2Proof.Machine

/-- One step (R85): fetch and decode, then the instruction's meaning. A fault is a next state (log 3), and
a machine that is not Running is left as it is (R156; log 4). -/
def step (s : State) : Host.Outcome State Fault Refusal :=
  match fetch s with
  | .idle => .next s
  | .stopped t => .next t
  | .ready i t => exec i t

/-- The state with the instruction of an opcode-table word where the next step fetches it (log 6). -/
def State.withFetchWord (s : State) (nbits w : Nat) : State := placeAtFetch s (tableBytes nbits w)

end Sys2Proof.Machine
end

