-- ==== Sys2Proof/Machine/Executor.lean ====
section
/-! DEFINITION. The executor for ANY configuration (41_executor.md R85): the step as the spec's pseudocode has
it, over registry entries of any kind, mode and length, well-formed or not (30_encoding.md R55), either memory
size and either TAY flag source. It calls the operations the nineteen meanings call. -/

namespace Sys2Proof.Machine

/-- The six-way dispatch on `e.kind` (R85, R92), at a state whose PC is `pc1`. -/
def execEntry (cfg : Config) (e : OpcodeEntry) (s : State) : State :=
  match e.kind with
  | .lda => lda cfg (resolve cfg s.mem e.mode s.pc s.x s.y) e.len s
  | .sta => sta cfg (resolve cfg s.mem e.mode s.pc s.x s.y) e.len s
  | .tax => tax s
  | .tay => tay cfg s
  | .inx => inx s
  | .brk => brk s

/-- The step (R85). In Ready, Halted and Faulted no step is taken and nothing changes (R146). -/
def stepWith (cfg : Config) (s : State) : State :=
  match s.rs with
  | .ready | .halted | .faulted _ => s
  | .running =>
    match memRead cfg s.mem s.pc with
    | .error f => raise f s
    | .ok op =>
      match lookup cfg.registry op with
      | none => raise (.unimplementedOpcode op) s
      | some e => execEntry cfg e (advance 1 s)

end Sys2Proof.Machine
end

