-- ==== Sys2Proof/Machine/Accesses.lean ====
section
/-! DEFINITION. The memory accesses of one step in the order they are made (20_memory.md R31, R42;
60_exceptions.md R135; log 14). They are no state: they say what a step touches, and in what order. -/

namespace Sys2Proof.Machine

/-- One byte access. -/
inductive Access where
  | read (a : Word)
  | write (a : Word)
  deriving DecidableEq, Repr

/-- The address of an access. -/
def Access.addr : Access → Word
  | .read a => a
  | .write a => a

/-- The operand bytes the resolver reads, low byte first (R71 to R80). -/
def operandReads (mode : Mode) (pc1 : Word) : List Access :=
  match mode with
  | .immediate | .noneAddressing => []
  | .zeroPage | .zeroPageX | .zeroPageY | .indirectX | .indirectY => [.read pc1]
  | .absolute | .absoluteX | .absoluteY => [.read pc1, .read (pc1 + 1)]

/-- The pointer bytes the resolver reads, low byte first (R78, R79). -/
def pointerReads (m : Memory) (mode : Mode) (pc1 : Word) (x : Byte) : List Access :=
  match mode with
  | .indirectX =>
    [.read (zext16 (m.read pc1.toNat + x)), .read (zext16 (m.read pc1.toNat + x + 1))]
  | .indirectY =>
    [.read (zext16 (m.read pc1.toNat)), .read (zext16 (m.read pc1.toNat + 1))]
  | .immediate | .noneAddressing | .zeroPage | .zeroPageX | .zeroPageY
  | .absolute | .absoluteX | .absoluteY => []

/-- The data access of LDA or STA, when the resolver gives an address. -/
def dataAccess (cfg : Config) (access : Word → Access) (e : OpcodeEntry) (s : State) : List Access :=
  match resolve cfg s.mem e.mode s.pc s.x s.y with
  | .ok a => [access a]
  | .error _ => []

/-- The accesses an entry asks for after its opcode byte, at a state whose PC is `pc1`. -/
def entryAccesses (cfg : Config) (e : OpcodeEntry) (s : State) : List Access :=
  match e.kind with
  | .lda => operandReads e.mode s.pc ++ pointerReads s.mem e.mode s.pc s.x ++ dataAccess cfg .read e s
  | .sta => operandReads e.mode s.pc ++ pointerReads s.mem e.mode s.pc s.x ++ dataAccess cfg .write e s
  | .tax | .tay | .inx | .brk => []

/-- The accesses a step makes, in order; the first one out of range faults and ends the list. -/
def stepAccesses (cfg : Config) (s : State) : List Access :=
  match s.rs with
  | .ready | .halted | .faulted _ => []
  | .running =>
    (Access.read s.pc ::
      match lookup cfg.registry (s.mem.read s.pc.toNat) with
      | none => []
      | some e => entryAccesses cfg e (advance 1 s)).takeWhile fun c => inRange cfg c.addr

end Sys2Proof.Machine
end

