-- ==== Sys2Proof/Machine/HostCommands.lean ====
section
/-! DEFINITION. The host's commands (70_reset_and_hazards.md R150 to R158): load, reset, run, load_and_run,
step, read and write, each between two steps (R160), in any run state (R158) and any configuration. -/

namespace Sys2Proof.Machine

/-- What a command returns to the host (R152 to R157). -/
inductive Reply where
  /-- The command was done. -/
  | done
  /-- The byte that was read (R157). -/
  | byte (v : Byte)
  /-- A step was taken and the CORE is still Running (R156). -/
  | running
  /-- The CORE is Ready: no step was taken (R154, R156). -/
  | notRunning
  /-- The CORE is Halted (R154). -/
  | halted
  /-- The CORE is Faulted, with the kind and datum (R154). -/
  | faulted (f : Fault)
  /-- The budget is spent and the CORE is still Running (R154). -/
  | budgetExhausted
  /-- The sequence does not fit; nothing was written (R152). -/
  | loadTooLong
  /-- The host's address is at or above MEM_SIZE; nothing changed (R157). -/
  | outOfRange
  deriving DecidableEq, Repr

/-- How `step` and `run` report the run state (R154, R156). -/
def report : RunState → Reply
  | .ready => .notRunning
  | .running => .running
  | .halted => .halted
  | .faulted f => .faulted f

/-- Whether n program bytes fit between the program origin and the end of memory:
`n ≤ MEM_SIZE - 0x8000` (R152). -/
def loadFits (cfg : Config) (n : Nat) : Bool := decide (programOrigin.toNat + n ≤ cfg.memSize.bytes)

/-- The memory after `load`: the program bytes in ascending order, then the reset vector (R152). The vector's
write is always in range. -/
def loadMemory (cfg : Config) (bytes : List Byte) (m : Memory) : Memory :=
  match memWrite16 cfg (Memory.writeBytes m programOrigin.toNat bytes) resetVector programOrigin with
  | .ok m' => m'
  | .error (_, m') => m'

/-- `load(bytes)` (R152): refused whole when the sequence does not fit. -/
def hostLoad (cfg : Config) (bytes : List Byte) (s : State) : State × Reply :=
  if loadFits cfg bytes.length then (s.setMem (loadMemory cfg bytes s.mem), .done)
  else (s, .loadTooLong)

/-- `reset()` (R153): A, X and P are zeroed, PC is loaded from the vector, RS is Running; Y and M stay. The
vector's read is always in range. -/
def hostReset (cfg : Config) (s : State) : State :=
  match memRead16 cfg s.mem resetVector with
  | .ok v => ((((s.setA 0).setX 0).setP 0).setPc v).setRs .running
  | .error f => raise f s

/-- `step()` (R156). -/
def hostStep (cfg : Config) (s : State) : State × Reply :=
  (stepWith cfg s, report (stepWith cfg s).rs)

/-- `run(budget)` (R93, R154): at most `budget` steps, while Running. -/
def hostRun (cfg : Config) : Nat → State → State × Reply
  | 0, s => (s, if s.rs = .running then .budgetExhausted else report s.rs)
  | n + 1, s => if s.rs = .running then hostRun cfg n (stepWith cfg s) else (s, report s.rs)

/-- `run()` without a budget ends in a state with a reply (R93, R154): some budget is enough. A run for which
no budget is enough is a hang (R93). -/
def RunEnds (cfg : Config) (s t : State) (r : Reply) : Prop :=
  ∃ n, hostRun cfg n s = (t, r) ∧ r ≠ .budgetExhausted

/-- `read(addr)` (R157). -/
def hostRead (cfg : Config) (a : Word) (s : State) : State × Reply :=
  match memRead cfg s.mem a with
  | .ok v => (s, .byte v)
  | .error _ => (s, .outOfRange)

/-- `write(addr, byte)` (R157). -/
def hostWrite (cfg : Config) (a : Word) (v : Byte) (s : State) : State × Reply :=
  match memWrite cfg s.mem a v with
  | .ok m => (s.setMem m, .done)
  | .error _ => (s, .outOfRange)

/-- The first two parts of `load_and_run` (R155): load, and unless it was refused, reset. -/
def hostLoadAndReset (cfg : Config) (bytes : List Byte) (s : State) : State × Reply :=
  match hostLoad cfg bytes s with
  | (t, .loadTooLong) => (t, .loadTooLong)
  | (t, _) => (hostReset cfg t, .done)

/-- `load_and_run(bytes)` ends in a state with a reply (R155): with the refusal where `load` refused, otherwise as
`run()` without a budget ends from the state that load and reset leave. Where that run is a hang (R93) it ends in
no state (log 13). -/
def LoadAndRunEnds (cfg : Config) (bytes : List Byte) (s t : State) (r : Reply) : Prop :=
  match hostLoadAndReset cfg bytes s with
  | (u, .loadTooLong) => t = u ∧ r = .loadTooLong
  | (u, _) => RunEnds cfg u t r

/-- The commands as data (R150). `run none` is `run()`, `run (some n)` is `run(n)` (R154). -/
inductive Command where
  | load (bytes : List Byte)
  | reset
  | run (budget : Option Nat)
  | loadAndRun (bytes : List Byte)
  | step
  | read (a : Word)
  | write (a : Word) (v : Byte)
  deriving DecidableEq, Repr

/-- A command ends in a state with a reply (R150, R158). It is a relation, because `run()` and `load_and_run` may
be a hang; every other command always ends. -/
def CommandEnds (cfg : Config) (c : Command) (s t : State) (r : Reply) : Prop :=
  match c with
  | .load bytes => hostLoad cfg bytes s = (t, r)
  | .reset => hostReset cfg s = t ∧ r = .done
  | .run none => RunEnds cfg s t r
  | .run (some n) => hostRun cfg n s = (t, r)
  | .loadAndRun bytes => LoadAndRunEnds cfg bytes s t r
  | .step => hostStep cfg s = (t, r)
  | .read a => hostRead cfg a s = (t, r)
  | .write a v => hostWrite cfg a v s = (t, r)

end Sys2Proof.Machine
end

