-- ==== Sys2Proof/Safety.lean ====
section
/-! DEFINITION. The terms claims are made in: reachable states, the invariant of the reachable states, and a
run that ends well. -/

namespace Sys2Proof.Machine

/-- The states a machine of a configuration can be in: power-on, then any host commands (R151, R158). A step
of the CORE happens only inside the commands `step`, `run` and `load_and_run` (R150). -/
inductive Reachable (cfg : Config) : State → Prop
  | powerOn : Reachable cfg State.powerOn
  | command (c : Command) (s t : State) (r : Reply) (h : Reachable cfg s) (hc : CommandEnds cfg c s t r) :
      Reachable cfg t

/-- The values P takes in reachable states: 0x00, 0x02, 0x80 (R19). -/
def statusLegal (p : Byte) : Bool := p == 0x00 || p == 0x02 || p == 0x80

/-- A fault kept in RS is one its configuration can raise (R130). -/
def faultLegal (cfg : Config) : RunState → Bool
  | .ready | .running | .halted => true
  | .faulted (.unimplementedOpcode b) => (lookup cfg.registry b).isNone
  | .faulted .unsupportedAddressingMode => !Registry.wf cfg.registry
  | .faulted (.memoryOutOfRange a) => !inRange cfg a

/-- The invariant of the machine: memory is in its canonical form and lists no address at or above MEM_SIZE
(R30), the status byte is one of its three values (R19), and a fault is one that can be (R130). -/
structure State.Inv (cfg : Config) (s : State) : Prop where
  memCanonical : s.mem.wf = true
  memBelow : s.mem.below cfg.memSize.bytes = true
  status : statusLegal s.p = true
  fault : faultLegal cfg s.rs = true

/-- A state that is not Faulted. -/
def State.safe (s : State) : Bool := s.rs.faultCode == 0

/-- A run from a state ends well: Halted, "terminal, success" (R20, R162). -/
def RunHalts (cfg : Config) (s : State) : Prop := ∃ t, RunEnds cfg s t .halted

end Sys2Proof.Machine
end

