-- ==== Sys2Proof/Certificates/Slice0/Obligations.lean ====
section
/-! DEFINITION. The statements about the model, from the numbered rules of spec/. A statement over every
configuration `cfg` holds for both memory sizes, both TAY flag sources and any registry (R5); one about `exec`
or `step` is at CFG_OBSERVED (log 1). -/

namespace Sys2Proof.Machine

/-- The address an instruction stores to, by the expression its meaning gives STA (R111 to R117). -/
def storeAddress (i : Instr) (s : State) : Option Word :=
  match i with
  | .staZp d8 => some (eaZeroPage d8)
  | .staZpX d8 => some (eaZeroPageIndexed d8 s.x)
  | .staAbs a16 => some (eaAbsolute a16)
  | .staAbsX a16 => some (eaAbsoluteIndexed a16 s.x)
  | .staAbsY a16 => some (eaAbsoluteIndexed a16 s.y)
  | .staIndX d8 => (eaIndirectX cfgObserved s.mem d8 s.x).toOption
  | .staIndY d8 => (eaIndirectY cfgObserved s.mem d8 s.y).toOption
  | .ldaImm _ | .ldaZp _ | .ldaZpX _ | .ldaAbs _ | .ldaAbsX _ | .ldaAbsY _ | .ldaIndX _ | .ldaIndY _ => none
  | .tax | .tay | .inx | .brk => none

/-- The CORE is Running and the byte at PC is in range and selects the entry `e` (R85 to R87). -/
def FetchesEntry (cfg : Config) (s : State) (e : OpcodeEntry) : Prop :=
  s.rs = .running ∧ inRange cfg s.pc = true ∧ lookup cfg.registry (s.mem.read s.pc.toNat) = some e

/-- The addresses the resolver reads, in order, as numbers (R72 to R79). -/
def resolverReads (m : Memory) (mode : Mode) (pc1 : Word) (x : Byte) : List Nat :=
  (operandReads mode pc1 ++ pointerReads m mode pc1 x).map fun c => c.addr.toNat

/-- The status bits other than Zero and Negative are the same (R17). -/
def SameOtherStatusBits (p q : Byte) : Prop := ∀ k, k ≠ 1 → k ≠ 7 → q.getLsbD k = p.getLsbD k

end Sys2Proof.Machine

section

open Sys2Proof Sys2Proof.Machine

/-! ### Flags -/

/-- R90: SetZN writes bit 1 and bit 7 of the status byte, each to 0 or 1, and no other bit; Z and N are never
both set by it; it writes nothing but P. -/
def Obligations.FlagUpdateSetsZeroAndNegativeOnly : Prop :=
  ∀ (v : Byte) (s : State),
    (setZN v s).zero = decide (v = 0) ∧
    (setZN v s).negative = v.getLsbD 7 ∧
    SameOtherStatusBits s.p (setZN v s).p ∧
    ¬ ((setZN v s).zero = true ∧ (setZN v s).negative = true) ∧
    setZN v s = { s with p := (setZN v s).p }

/-! ### Memory -/

/-- 20_memory.md section 2: a byte access below MEM_SIZE reads or writes that byte only; at or above it the
access is MemoryOutOfRange with its address (the spec's decision D2, log 8). -/
def Obligations.ByteAccessIsRangeChecked : Prop :=
  ∀ (cfg : Config) (m : Memory) (a : Word) (v : Byte), m.wf = true →
    (a.toNat < cfg.memSize.bytes →
      memRead cfg m a = .ok (m.read a.toNat) ∧
      ∃ m', memWrite cfg m a v = .ok m' ∧ m'.read a.toNat = v ∧ ∀ b, b ≠ a.toNat → m'.read b = m.read b) ∧
    (cfg.memSize.bytes ≤ a.toNat →
      memRead cfg m a = .error (.memoryOutOfRange a) ∧ memWrite cfg m a v = .error (.memoryOutOfRange a))

/-- 20_memory.md section 2: the little-endian word access, its round trip, and the byte it leaves written when
only its second byte is out of range. -/
def Obligations.WordAccessIsLittleEndian : Prop :=
  ∀ (cfg : Config) (m : Memory) (a w : Word), m.wf = true →
    (inRange cfg a = true → inRange cfg (a + 1) = true →
      ∃ m', memWrite16 cfg m a w = .ok m' ∧
        (m'.read a.toNat).toNat = w.toNat % 256 ∧ (m'.read (a + 1).toNat).toNat = w.toNat / 256 ∧
        (∀ b, b ≠ a.toNat → b ≠ (a + 1).toNat → m'.read b = m.read b) ∧
        memRead16 cfg m' a = .ok w) ∧
    (inRange cfg a = true → inRange cfg (a + 1) = false →
      memRead16 cfg m a = .error (.memoryOutOfRange (a + 1)) ∧
      ∃ m', memWrite16 cfg m a w = .error (.memoryOutOfRange (a + 1), m') ∧
        (m'.read a.toNat).toNat = w.toNat % 256 ∧ ∀ b, b ≠ a.toNat → m'.read b = m.read b) ∧
    (inRange cfg a = false →
      memRead16 cfg m a = .error (.memoryOutOfRange a) ∧
      memWrite16 cfg m a w = .error (.memoryOutOfRange a, m))

/-- The canonical form of memory: two canonical memories with the same bytes are the same list. -/
def Obligations.CanonicalMemoriesAreEqual : Prop :=
  ∀ m m' : Memory, m.wf = true → m'.wf = true → (∀ a, m.read a = m'.read a) → m = m'

/-! ### The resolver -/

/-- R72, R73, R74 (and the first row of the table, Immediate): the modes with one operand byte and no pointer.
The operand byte is all they read, and that read is their only fault; the sum stays in the zero page. That an
address at or above MEM_SIZE faults is the spec's decision D2 (log 8). -/
def Obligations.ResolverDirectModes : Prop :=
  ∀ (cfg : Config) (m : Memory) (pc1 : Word) (x y : Byte),
    resolve cfg m .immediate pc1 x y = .ok pc1 ∧ resolverReads m .immediate pc1 x = [] ∧
    (∀ mode, mode = .zeroPage ∨ mode = .zeroPageX ∨ mode = .zeroPageY →
      resolverReads m mode pc1 x = [pc1.toNat]) ∧
    (pc1.toNat < cfg.memSize.bytes →
      (∃ ea, resolve cfg m .zeroPage pc1 x y = .ok ea ∧ ea.toNat = (m.read pc1.toNat).toNat) ∧
      (∃ ea, resolve cfg m .zeroPageX pc1 x y = .ok ea ∧
        ea.toNat = ((m.read pc1.toNat).toNat + x.toNat) % 256) ∧
      (∃ ea, resolve cfg m .zeroPageY pc1 x y = .ok ea ∧
        ea.toNat = ((m.read pc1.toNat).toNat + y.toNat) % 256)) ∧
    (cfg.memSize.bytes ≤ pc1.toNat →
      resolve cfg m .zeroPage pc1 x y = .error (.memoryOutOfRange pc1) ∧
      resolve cfg m .zeroPageX pc1 x y = .error (.memoryOutOfRange pc1) ∧
      resolve cfg m .zeroPageY pc1 x y = .error (.memoryOutOfRange pc1))

/-- R75, R76, R77: the absolute modes take the little-endian word at `pc1` and add the index modulo 65536; the
second operand byte is at `(pc1 + 1) mod 65536` and is read second. That an address at or above MEM_SIZE faults
is the spec's decision D2 (log 8). -/
def Obligations.ResolverAbsoluteModes : Prop :=
  ∀ (cfg : Config) (m : Memory) (pc1 : Word) (x y : Byte),
    let lo := (m.read pc1.toNat).toNat
    let hi := (m.read ((pc1.toNat + 1) % 0x10000)).toNat
    (inRange cfg pc1 = true → inRange cfg (pc1 + 1) = true →
      (∃ ea, resolve cfg m .absolute pc1 x y = .ok ea ∧ ea.toNat = hi * 256 + lo) ∧
      (∃ ea, resolve cfg m .absoluteX pc1 x y = .ok ea ∧ ea.toNat = (hi * 256 + lo + x.toNat) % 0x10000) ∧
      (∃ ea, resolve cfg m .absoluteY pc1 x y = .ok ea ∧ ea.toNat = (hi * 256 + lo + y.toNat) % 0x10000)) ∧
    (∀ mode, mode = .absolute ∨ mode = .absoluteX ∨ mode = .absoluteY →
      resolverReads m mode pc1 x = [pc1.toNat, (pc1.toNat + 1) % 0x10000] ∧
      (inRange cfg pc1 = false → resolve cfg m mode pc1 x y = .error (.memoryOutOfRange pc1)) ∧
      (inRange cfg pc1 = true → inRange cfg (pc1 + 1) = false →
        resolve cfg m mode pc1 x y = .error (.memoryOutOfRange (pc1 + 1))))

/-- R78, R79: the indirect modes fetch a little-endian pointer from the zero page, its high byte at
`(ptr + 1) mod 256`; X is added before the fetch, Y after it. The three reads are in that order and the operand
read is the only fault (the spec's decision D2, log 8). -/
def Obligations.ResolverIndirectModes : Prop :=
  ∀ (cfg : Config) (m : Memory) (pc1 : Word) (x y : Byte),
    let d8 := (m.read pc1.toNat).toNat
    let word := fun ptr : Nat => (m.read ((ptr + 1) % 256)).toNat * 256 + (m.read (ptr % 256)).toNat
    resolverReads m .indirectX pc1 x = [pc1.toNat, (d8 + x.toNat) % 256, (d8 + x.toNat + 1) % 256] ∧
    resolverReads m .indirectY pc1 x = [pc1.toNat, d8, (d8 + 1) % 256] ∧
    (inRange cfg pc1 = true →
      (∃ ea, resolve cfg m .indirectX pc1 x y = .ok ea ∧ ea.toNat = word (d8 + x.toNat)) ∧
      (∃ ea, resolve cfg m .indirectY pc1 x y = .ok ea ∧ ea.toNat = (word d8 + y.toNat) % 0x10000)) ∧
    (inRange cfg pc1 = false →
      resolve cfg m .indirectX pc1 x y = .error (.memoryOutOfRange pc1) ∧
      resolve cfg m .indirectY pc1 x y = .error (.memoryOutOfRange pc1))

/-- 40_addressing_modes.md section 3: with the full memory no mode but NoneAddressing can fault; in every
configuration NoneAddressing is the only mode that raises UnsupportedAddressingMode. -/
def Obligations.ResolverFaultsOnlyByModeOrRange : Prop :=
  ∀ (cfg : Config) (m : Memory) (mode : Mode) (pc1 : Word) (x y : Byte),
    (cfg.memSize = .full → mode ≠ .noneAddressing → ∃ ea, resolve cfg m mode pc1 x y = .ok ea) ∧
    (resolve cfg m mode pc1 x y = .error .unsupportedAddressingMode ↔ mode = .noneAddressing)

/-! ### The six kinds, for any registry entry -/

/-- R100: LDA for any entry of that kind, in any configuration. A fault is the mode's or an address at or above
MEM_SIZE (the spec's decision D2, log 8). -/
def Obligations.LoadAnyEntry : Prop :=
  ∀ (cfg : Config) (e : OpcodeEntry) (s : State), e.kind = .lda →
    (e.mode = .noneAddressing → execEntry cfg e s = { s with rs := .faulted .unsupportedAddressingMode }) ∧
    (∀ f, resolve cfg s.mem e.mode s.pc s.x s.y = .error f →
      execEntry cfg e s = { s with rs := .faulted f } ∧
      (e.mode ≠ .noneAddressing → ∃ a, inRange cfg a = false ∧ f = .memoryOutOfRange a)) ∧
    (∀ ea, resolve cfg s.mem e.mode s.pc s.x s.y = .ok ea →
      (inRange cfg ea = false → execEntry cfg e s = { s with rs := .faulted (.memoryOutOfRange ea) }) ∧
      (inRange cfg ea = true →
        let v := s.mem.read ea.toNat
        ∃ p', execEntry cfg e s =
            { s with a := v, p := p', pc := s.pc + BitVec.ofNat 16 (e.len.bytes - 1) } ∧
          p'.getLsbD 1 = decide (v = 0) ∧ p'.getLsbD 7 = v.getLsbD 7 ∧ SameOtherStatusBits s.p p'))

/-- R110: STA for any entry of that kind, in any configuration. A fault is the mode's or an address at or above
MEM_SIZE (the spec's decision D2, log 8). -/
def Obligations.StoreAnyEntry : Prop :=
  ∀ (cfg : Config) (e : OpcodeEntry) (s : State), e.kind = .sta → s.mem.wf = true →
    (e.mode = .noneAddressing → execEntry cfg e s = { s with rs := .faulted .unsupportedAddressingMode }) ∧
    (∀ f, resolve cfg s.mem e.mode s.pc s.x s.y = .error f →
      execEntry cfg e s = { s with rs := .faulted f } ∧
      (e.mode ≠ .noneAddressing → ∃ a, inRange cfg a = false ∧ f = .memoryOutOfRange a)) ∧
    (∀ ea, resolve cfg s.mem e.mode s.pc s.x s.y = .ok ea →
      (inRange cfg ea = false → execEntry cfg e s = { s with rs := .faulted (.memoryOutOfRange ea) }) ∧
      (inRange cfg ea = true →
        ∃ m', execEntry cfg e s =
            { s with mem := m', pc := s.pc + BitVec.ofNat 16 (e.len.bytes - 1) } ∧
          m'.read ea.toNat = s.a ∧ ∀ b, b ≠ ea.toNat → m'.read b = s.mem.read b))

/-- R120: TAX, the instruction and any entry of that kind; the entry's length and mode are not consulted. The
opcode byte in the last clause is the registry's general knowledge (log 2). -/
def Obligations.TransferToX : Prop :=
  ∀ (s : State),
    (∃ p', exec .tax s = .next { s with x := s.a, p := p' } ∧
      p'.getLsbD 1 = decide (s.a = 0) ∧ p'.getLsbD 7 = s.a.getLsbD 7 ∧ SameOtherStatusBits s.p p') ∧
    (∀ (cfg : Config) (e : OpcodeEntry), e.kind = .tax → exec .tax s = .next (execEntry cfg e s)) ∧
    (∀ rest, decode (0xAA :: rest) = .ok (.tax, rest))

/-- 44_register_ops.md, TAY: Y takes A; the flags come from X as observed (log 9), from the new Y in the
corrected configuration. Both are the configuration's choice; the instruction TAY is the observed one. -/
def Obligations.TransferToY : Prop :=
  ∀ (s : State),
    (∃ p', exec .tay s = .next { s with y := s.a, p := p' } ∧
      p'.getLsbD 1 = decide (s.x = 0) ∧ p'.getLsbD 7 = s.x.getLsbD 7 ∧ SameOtherStatusBits s.p p') ∧
    (∀ (cfg : Config) (e : OpcodeEntry), e.kind = .tay →
      ∃ p', execEntry cfg e s = { s with y := s.a, p := p' } ∧ SameOtherStatusBits s.p p' ∧
        (cfg.tayFlagSource = .fromX → p'.getLsbD 1 = decide (s.x = 0) ∧ p'.getLsbD 7 = s.x.getLsbD 7) ∧
        (cfg.tayFlagSource = .fromY → p'.getLsbD 1 = decide (s.a = 0) ∧ p'.getLsbD 7 = s.a.getLsbD 7))

/-- R122: INX; Zero exactly when the old X was 0xFF, Negative exactly when it was in 0x7F to 0xFE. The opcode
byte in the last clause is the registry's general knowledge (log 2). -/
def Obligations.IncrementX : Prop :=
  ∀ (s : State),
    (∃ x' p', exec .inx s = .next { s with x := x', p := p' } ∧
      x'.toNat = (s.x.toNat + 1) % 256 ∧
      p'.getLsbD 1 = decide (s.x = 0xFF) ∧
      p'.getLsbD 7 = decide (0x7F ≤ s.x.toNat ∧ s.x.toNat ≤ 0xFE) ∧ SameOtherStatusBits s.p p') ∧
    (∀ (cfg : Config) (e : OpcodeEntry), e.kind = .inx → exec .inx s = .next (execEntry cfg e s)) ∧
    (∀ rest, decode (0xE8 :: rest) = .ok (.inx, rest))

/-- R125: BRK halts and changes nothing else; a whole step of it leaves PC one past its byte. The opcode byte
in the last clause is the registry's general knowledge (log 2). -/
def Obligations.HaltChangesOnlyRunState : Prop :=
  ∀ (s : State),
    exec .brk s = .next { s with rs := .halted } ∧
    (∀ (cfg : Config) (e : OpcodeEntry), e.kind = .brk → execEntry cfg e s = { s with rs := .halted }) ∧
    (∀ (cfg : Config) (e : OpcodeEntry), e.kind = .brk → FetchesEntry cfg s e →
      stepWith cfg s = { s with rs := .halted, pc := s.pc + 1 }) ∧
    (∀ rest, decode (0x00 :: rest) = .ok (.brk, rest))

/-! ### The nineteen instructions: results and completion -/

/-- 42_load_accumulator.md section 2: LDA immediate, zero page and zero page,X complete in every state. -/
def Obligations.LoadImmediateAndZeroPageForms : Prop :=
  ∀ (d8 : Byte) (s : State),
    let zp := s.mem.read d8.toNat
    let zpx := s.mem.read ((d8.toNat + s.x.toNat) % 256)
    exec (.ldaImm d8) s = .next { s with a := d8, p := znStatus s.p d8, pc := s.pc + 1 } ∧
    exec (.ldaZp d8) s = .next { s with a := zp, p := znStatus s.p zp, pc := s.pc + 1 } ∧
    exec (.ldaZpX d8) s = .next { s with a := zpx, p := znStatus s.p zpx, pc := s.pc + 1 }

/-- 42_load_accumulator.md section 2: LDA absolute, absolute,X and absolute,Y complete when the address is not
0xFFFF, and raise MemoryOutOfRange(0xFFFF) when it is (log 8). -/
def Obligations.LoadAbsoluteForms : Prop :=
  ∀ (a16 : Word) (s : State) (i : Instr) (ea : Nat),
    (i = .ldaAbs a16 ∧ ea = a16.toNat ∨
      i = .ldaAbsX a16 ∧ ea = (a16.toNat + s.x.toNat) % 0x10000 ∨
      i = .ldaAbsY a16 ∧ ea = (a16.toNat + s.y.toNat) % 0x10000) →
    (ea ≠ 0xFFFF →
      exec i s = .next { s with
        a := s.mem.read ea, p := znStatus s.p (s.mem.read ea), pc := s.pc + 2 }) ∧
    (ea = 0xFFFF → exec i s = .next { s with rs := .faulted (.memoryOutOfRange 0xFFFF) })

/-- 42_load_accumulator.md section 2: LDA (indirect,X) and (indirect),Y complete when the address is not
0xFFFF, and raise MemoryOutOfRange(0xFFFF) when it is (log 8). -/
def Obligations.LoadIndirectForms : Prop :=
  ∀ (d8 : Byte) (s : State) (i : Instr) (ea : Nat),
    let word := fun ptr : Nat => (s.mem.read ((ptr + 1) % 256)).toNat * 256 + (s.mem.read (ptr % 256)).toNat
    (i = .ldaIndX d8 ∧ ea = word (d8.toNat + s.x.toNat) ∨
      i = .ldaIndY d8 ∧ ea = (word d8.toNat + s.y.toNat) % 0x10000) →
    (ea ≠ 0xFFFF →
      exec i s = .next { s with
        a := s.mem.read ea, p := znStatus s.p (s.mem.read ea), pc := s.pc + 1 }) ∧
    (ea = 0xFFFF → exec i s = .next { s with rs := .faulted (.memoryOutOfRange 0xFFFF) })

/-- 43_store_accumulator.md section 2: STA zero page and zero page,X complete in every state; the byte stored
is read back and no other byte changes. -/
def Obligations.StoreZeroPageForms : Prop :=
  ∀ (d8 : Byte) (s : State) (i : Instr) (ea : Nat), s.mem.wf = true →
    (i = .staZp d8 ∧ ea = d8.toNat ∨ i = .staZpX d8 ∧ ea = (d8.toNat + s.x.toNat) % 256) →
    ∃ m', exec i s = .next { s with mem := m', pc := s.pc + 1 } ∧
      m'.read ea = s.a ∧ ∀ b, b ≠ ea → m'.read b = s.mem.read b

/-- 43_store_accumulator.md section 2: STA absolute, absolute,X and absolute,Y complete when the address is not
0xFFFF, and raise MemoryOutOfRange(0xFFFF), storing nothing, when it is (log 8). -/
def Obligations.StoreAbsoluteForms : Prop :=
  ∀ (a16 : Word) (s : State) (i : Instr) (ea : Nat), s.mem.wf = true →
    (i = .staAbs a16 ∧ ea = a16.toNat ∨
      i = .staAbsX a16 ∧ ea = (a16.toNat + s.x.toNat) % 0x10000 ∨
      i = .staAbsY a16 ∧ ea = (a16.toNat + s.y.toNat) % 0x10000) →
    (ea ≠ 0xFFFF →
      ∃ m', exec i s = .next { s with mem := m', pc := s.pc + 2 } ∧
        m'.read ea = s.a ∧ ∀ b, b ≠ ea → m'.read b = s.mem.read b) ∧
    (ea = 0xFFFF → exec i s = .next { s with rs := .faulted (.memoryOutOfRange 0xFFFF) })

/-- 43_store_accumulator.md section 2: STA (indirect,X) and (indirect),Y complete when the address is not
0xFFFF, and raise MemoryOutOfRange(0xFFFF), storing nothing, when it is (log 8). The pointer is read before
the store, also where the store lands on it. -/
def Obligations.StoreIndirectForms : Prop :=
  ∀ (d8 : Byte) (s : State) (i : Instr) (ea : Nat), s.mem.wf = true →
    let word := fun ptr : Nat => (s.mem.read ((ptr + 1) % 256)).toNat * 256 + (s.mem.read (ptr % 256)).toNat
    (i = .staIndX d8 ∧ ea = word (d8.toNat + s.x.toNat) ∨
      i = .staIndY d8 ∧ ea = (word d8.toNat + s.y.toNat) % 0x10000) →
    (ea ≠ 0xFFFF →
      ∃ m', exec i s = .next { s with mem := m', pc := s.pc + 1 } ∧
        m'.read ea = s.a ∧ ∀ b, b ≠ ea → m'.read b = s.mem.read b) ∧
    (ea = 0xFFFF → exec i s = .next { s with rs := .faulted (.memoryOutOfRange 0xFFFF) })

/-! ### Frames -/

/-- The frame of the eight LDA forms: X, Y, the other status bits and every byte of memory are as before; RS is
as before or the fault's, and a fault leaves A, P and PC as they were. -/
def Obligations.LoadFrame : Prop :=
  ∀ (i : Instr) (s t : State), i.kind = .lda → exec i s = .next t →
    t.x = s.x ∧ t.y = s.y ∧ SameOtherStatusBits s.p t.p ∧ (∀ b, t.mem.read b = s.mem.read b) ∧
    (t.rs = s.rs ∨ ∃ f, t.rs = .faulted f ∧ t.a = s.a ∧ t.p = s.p ∧ t.pc = s.pc)

/-- The frame of the seven STA forms: no register but PC changes and no flag; for every address the
instruction's own address expression gives, every other byte is as before; a fault stores nothing and leaves
PC as it was. -/
def Obligations.StoreFrame : Prop :=
  ∀ (i : Instr) (s t : State), i.kind = .sta → exec i s = .next t →
    t.a = s.a ∧ t.x = s.x ∧ t.y = s.y ∧ t.p = s.p ∧
    (∃ ea, storeAddress i s = some ea) ∧
    (∀ ea, storeAddress i s = some ea → ∀ b, b ≠ ea.toNat → t.mem.read b = s.mem.read b) ∧
    (t.rs = s.rs ∨ ∃ f, t.rs = .faulted f ∧ t.pc = s.pc ∧ ∀ b, t.mem.read b = s.mem.read b)

/-- The frame of TAX, TAY, INX and BRK: A, PC and every byte of memory are as before; X changes only in TAX and
INX, Y only in TAY, RS only in BRK, and P only in its Zero and Negative bits and not in BRK. -/
def Obligations.RegisterAndHaltFrame : Prop :=
  ∀ (i : Instr) (s t : State), (i = .tax ∨ i = .tay ∨ i = .inx ∨ i = .brk) → exec i s = .next t →
    t.a = s.a ∧ t.pc = s.pc ∧ (∀ b, t.mem.read b = s.mem.read b) ∧
    (i = .tay ∨ i = .brk → t.x = s.x) ∧ (i ≠ .tay → t.y = s.y) ∧ (i ≠ .brk → t.rs = s.rs) ∧
    SameOtherStatusBits s.p t.p ∧ (i = .brk → t.p = s.p)

/-! ### The step -/

/-- A step runs the decoded instruction: when the bytes at PC decode to `i` and lie in memory, the step is the
meaning of `i` at the state with PC one past the opcode byte (R85, R88). -/
def Obligations.StepRunsDecodedInstruction : Prop :=
  ∀ (s : State) (i : Instr) (rest : List Byte), s.rs = .running →
    s.pc.toNat + (encode i).length ≤ 0xFFFF →
    decode [s.mem.read s.pc.toNat, s.mem.read (s.pc.toNat + 1), s.mem.read (s.pc.toNat + 2)] = .ok (i, rest) →
    step s = exec i { s with pc := s.pc + 1 }

/-- The decode-and-execute step and the spec's pseudocode of the executor, which reads each operand inside the
resolver, are the same machine under CFG_OBSERVED, in every state (41_executor.md section 1). -/
def Obligations.StepFollowsExecutorPseudocode : Prop :=
  ∀ s : State, step s = .next (stepWith cfgObserved s)

/-- 60_exceptions.md section 5, 70_reset_and_hazards.md section 4: in Ready, Halted and Faulted no step is taken
and nothing changes, in any configuration (log 4, log 12). -/
def Obligations.NoStepOutsideRunning : Prop :=
  ∀ s : State, s.rs ≠ .running → step s = .next s ∧ ∀ cfg, hostStep cfg s = (s, report s.rs)

/-- R87: a byte with no registry entry raises UnimplementedOpcode with the byte before PC moves, and nothing but
RS changes; in any configuration, and in `step`. -/
def Obligations.UnlistedOpcodeFaults : Prop :=
  ∀ s : State, s.rs = .running →
    (∀ cfg, inRange cfg s.pc = true → lookup cfg.registry (s.mem.read s.pc.toNat) = none →
      stepWith cfg s = { s with rs := .faulted (.unimplementedOpcode (s.mem.read s.pc.toNat)) }) ∧
    (s.pc.toNat < 0xFFFF → lookup regCanon (s.mem.read s.pc.toNat) = none →
      step s = .next { s with rs := .faulted (.unimplementedOpcode (s.mem.read s.pc.toNat)) })

/-- 41_executor.md section 1: a fetch at an address that is not there raises MemoryOutOfRange and changes nothing
but RS (the spec's decision D2, log 8). -/
def Obligations.FetchBeyondMemoryFaults : Prop :=
  ∀ s : State, s.rs = .running →
    (∀ cfg, inRange cfg s.pc = false →
      stepWith cfg s = { s with rs := .faulted (.memoryOutOfRange s.pc) }) ∧
    (s.pc = 0xFFFF → step s = .next { s with rs := .faulted (.memoryOutOfRange 0xFFFF) })

/-- R132: an LDA or STA entry with NoneAddressing raises UnsupportedAddressingMode with PC at `pc1` and nothing
else changed, even where an operand read would fault; nothing else raises it; with a well-formed registry, such
as REG_CANON, no step comes to it. -/
def Obligations.UnsupportedModeNeedsIllFormedRegistry : Prop :=
  (∀ (cfg : Config) (s : State) (e : OpcodeEntry), FetchesEntry cfg s e →
    (e.kind = .lda ∨ e.kind = .sta) → e.mode = .noneAddressing →
    stepWith cfg s = { s with rs := .faulted .unsupportedAddressingMode, pc := s.pc + 1 }) ∧
  (∀ (cfg : Config) (s : State), s.rs = .running →
    (stepWith cfg s).rs = .faulted .unsupportedAddressingMode →
    ∃ e, FetchesEntry cfg s e ∧ (e.kind = .lda ∨ e.kind = .sta) ∧ e.mode = .noneAddressing) ∧
  Registry.wf regCanon = true ∧
  (∀ (cfg : Config) (s : State), Registry.wf cfg.registry = true → s.rs ≠ .faulted .unsupportedAddressingMode →
    (stepWith cfg s).rs ≠ .faulted .unsupportedAddressingMode)

/-- 60_exceptions.md section 1: a step raises MemoryOutOfRange only with the observed memory, and only for the
address 0xFFFF. -/
def Obligations.OutOfRangeOnlyAtTopOfObservedMemory : Prop :=
  ∀ (cfg : Config) (s : State) (a : Word), s.rs = .running →
    (stepWith cfg s).rs = .faulted (.memoryOutOfRange a) → cfg.memSize = .observed ∧ a = 0xFFFF

/-- 60_exceptions.md section 1 (the spec's decision D9, log 17): faults are precise. A step that faults has
changed no register but PC, by at most one, and no byte of memory; PC has moved exactly when an entry was
found. -/
def Obligations.FaultsArePrecise : Prop :=
  ∀ (cfg : Config) (s : State) (f : Fault), s.rs = .running → (stepWith cfg s).rs = .faulted f →
    (stepWith cfg s = { s with rs := .faulted f } ∧ ∀ e, ¬ FetchesEntry cfg s e) ∨
    (stepWith cfg s = { s with rs := .faulted f, pc := s.pc + 1 } ∧
      ∃ e, FetchesEntry cfg s e ∧ (e.kind = .lda ∨ e.kind = .sta))

/-- R89: LDA and STA end with the operand skip `e.len - 1`, done last, so that a fault leaves PC at `pc1`; the
other kinds make no second advance whatever the length; with a well-formed entry a step that does not fault
and is not BRK moves PC by exactly the length, and BRK by 1. -/
def Obligations.ProgramCounterAfterStep : Prop :=
  ∀ (cfg : Config) (s : State) (e : OpcodeEntry), FetchesEntry cfg s e →
    let t := stepWith cfg s
    ((∃ f, t.rs = .faulted f) → t.pc = s.pc + 1) ∧
    ((∀ f, t.rs ≠ .faulted f) →
      ((e.kind = .lda ∨ e.kind = .sta) → t.pc = s.pc + BitVec.ofNat 16 e.len.bytes) ∧
      ((e.kind = .tax ∨ e.kind = .tay ∨ e.kind = .inx ∨ e.kind = .brk) → t.pc = s.pc + 1) ∧
      (e.wf = true → e.kind ≠ .brk → t.pc = s.pc + BitVec.ofNat 16 e.len.bytes))

/-- 41_executor.md section 5 (derived there): with the observed memory and a well-formed registry a step that
does not fault moves PC strictly up, so PC never wraps. -/
def Obligations.ForwardProgressWithoutWrap : Prop :=
  ∀ (cfg : Config) (s : State), cfg.memSize = .observed → Registry.wf cfg.registry = true → s.rs = .running →
    (∀ f, (stepWith cfg s).rs ≠ .faulted f) → s.pc.toNat < (stepWith cfg s).pc.toNat

/-- The state machine of the run state under a step: Halted exactly by an entry of kind BRK
(60_exceptions.md section 5). -/
def Obligations.OnlyHaltInstructionHalts : Prop :=
  ∀ (cfg : Config) (s : State), s.rs = .running →
    ((stepWith cfg s).rs = .halted ↔ ∃ e, FetchesEntry cfg s e ∧ e.kind = .brk) ∧
    (stepWith cfg s).rs ≠ .ready

/-- Which instruction writes which state (10_state.md section 7): A only LDA, X only TAX and INX, Y only TAY, P
only LDA, TAX, TAY and INX and never beyond its Zero and Negative bits, memory only STA. -/
def Obligations.OnlyNamedInstructionsWrite : Prop :=
  ∀ (cfg : Config) (s : State),
    let t := stepWith cfg s
    (t.a ≠ s.a → ∃ e, FetchesEntry cfg s e ∧ e.kind = .lda) ∧
    (t.x ≠ s.x → ∃ e, FetchesEntry cfg s e ∧ (e.kind = .tax ∨ e.kind = .inx)) ∧
    (t.y ≠ s.y → ∃ e, FetchesEntry cfg s e ∧ e.kind = .tay) ∧
    (t.p ≠ s.p → ∃ e, FetchesEntry cfg s e ∧ e.kind ≠ .sta ∧ e.kind ≠ .brk) ∧
    (t.mem ≠ s.mem → ∃ e, FetchesEntry cfg s e ∧ e.kind = .sta) ∧
    SameOtherStatusBits s.p t.p

/-- R91: where the flags come from. LDA sets them from A, TAX and INX from X, TAY from X as observed and from Y in
the corrected configuration; STA and BRK leave P, and so does a step that faults. -/
def Obligations.FlagsComeFromTheResult : Prop :=
  ∀ (cfg : Config) (s : State) (e : OpcodeEntry), FetchesEntry cfg s e →
    let t := stepWith cfg s
    let flagsOf := fun v : Byte => t.zero = decide (v = 0) ∧ t.negative = v.getLsbD 7 ∧ SameOtherStatusBits s.p t.p
    ((∃ f, t.rs = .faulted f) → t.p = s.p) ∧
    ((e.kind = .sta ∨ e.kind = .brk) → t.p = s.p) ∧
    ((∀ f, t.rs ≠ .faulted f) →
      (e.kind = .lda → flagsOf t.a) ∧
      ((e.kind = .tax ∨ e.kind = .inx) → flagsOf t.x) ∧
      (e.kind = .tay → (cfg.tayFlagSource = .fromX → flagsOf t.x) ∧ (cfg.tayFlagSource = .fromY → flagsOf t.y)))

/-- 20_memory.md section 6 (derived there): a byte a step stores is what a read or a fetch of that address finds
right after it. -/
def Obligations.StoredByteIsFetchedNext : Prop :=
  ∀ (cfg : Config) (s : State) (e : OpcodeEntry) (ea : Word), s.mem.wf = true → FetchesEntry cfg s e →
    e.kind = .sta → resolve cfg s.mem e.mode (s.pc + 1) s.x s.y = .ok ea → inRange cfg ea = true →
    memRead cfg (stepWith cfg s).mem ea = .ok s.a ∧ (stepWith cfg s).rs = .running

/-! ### What a step touches -/

/-- 20_memory.md section 1: the accesses of each kind. TAX, TAY, INX and BRK touch memory only by their fetch;
LDA reads only; STA writes at most once, and last. -/
def Obligations.AccessesOfEachKind : Prop :=
  ∀ (cfg : Config) (s : State) (e : OpcodeEntry), FetchesEntry cfg s e →
    ((e.kind = .tax ∨ e.kind = .tay ∨ e.kind = .inx ∨ e.kind = .brk) → stepAccesses cfg s = [.read s.pc]) ∧
    (e.kind = .lda → ∀ a, Access.write a ∉ stepAccesses cfg s) ∧
    (e.kind = .sta → ∀ a, Access.write a ∈ stepAccesses cfg s →
      ∃ reads, stepAccesses cfg s = reads ++ [.write a] ∧ ∀ b, Access.write b ∉ reads)

/-- A step depends on memory only through the bytes its accesses read: two states that agree on them make the
same accesses, leave the same registers and run state, and change memory at the same address to the same
byte (20_memory.md sections 1 and 6; log 14). -/
def Obligations.StepDependsOnlyOnItsReads : Prop :=
  ∀ (cfg : Config) (s : State) (m : Memory), s.mem.wf = true → m.wf = true →
    (∀ a, Access.read a ∈ stepAccesses cfg s → m.read a.toNat = s.mem.read a.toNat) →
    let t := stepWith cfg s
    let u := stepWith cfg { s with mem := m }
    stepAccesses cfg { s with mem := m } = stepAccesses cfg s ∧
    u.a = t.a ∧ u.x = t.x ∧ u.y = t.y ∧ u.p = t.p ∧ u.pc = t.pc ∧ u.rs = t.rs ∧
    (∀ a, Access.write a ∈ stepAccesses cfg s → u.mem.read a.toNat = t.mem.read a.toNat) ∧
    (∀ b, (∀ a, Access.write a ∈ stepAccesses cfg s → b ≠ a.toNat) →
      t.mem.read b = s.mem.read b ∧ u.mem.read b = m.read b)

/-! ### Runs -/

/-- 41_executor.md section 4: what `run` reports is the run state it leaves; it exhausts its budget exactly when
the CORE is still Running; where no step is allowed it changes nothing. -/
def Obligations.RunReplyTellsRunState : Prop :=
  ∀ (cfg : Config) (n : Nat) (s t : State) (r : Reply), hostRun cfg n s = (t, r) →
    r = (match t.rs with
      | .ready => .notRunning
      | .running => .budgetExhausted
      | .halted => .halted
      | .faulted f => .faulted f) ∧
    (s.rs ≠ .running → t = s) ∧ (s.rs = .running → t.rs ≠ .ready)

/-- 70_reset_and_hazards.md section 3: a run may be cut into budgets; the parts give what the whole gives. A run
without a budget reports the run state it ends in, Halted or Faulted when it began in Running, and every budget
from some number on gives the same end, so it ends in at most one way (log 13). -/
def Obligations.RunBudgetsCompose : Prop :=
  ∀ (cfg : Config) (s : State),
    (∀ m n, hostRun cfg (m + n) s = hostRun cfg n (hostRun cfg m s).1) ∧
    (∀ t r, RunEnds cfg s t r →
      r = report t.rs ∧ t.rs ≠ .running ∧ (s.rs = .running → t.rs ≠ .ready) ∧ (s.rs ≠ .running → t = s) ∧
      ∃ n, ∀ k, n ≤ k → hostRun cfg k s = (t, r)) ∧
    (∀ t r t' r', RunEnds cfg s t r → RunEnds cfg s t' r' → t = t' ∧ r = r')

/-- 41_executor.md section 5: with the observed memory and a well-formed registry every run ends, Halted or
Faulted, within 0x10000 - PC steps, so a run without a budget always ends. The bound is the model's reading
(log 13): it is at most the spec's 0xFFFF unless PC is 0, where a memory full of INX takes one step more, the
faulting one. -/
def Obligations.EveryRunEndsWithObservedMemory : Prop :=
  ∀ (cfg : Config) (s : State), cfg.memSize = .observed → Registry.wf cfg.registry = true → s.rs = .running →
    ∃ t, (t.rs = .halted ∨ ∃ f, t.rs = .faulted f) ∧
      hostRun cfg (0x10000 - s.pc.toNat) s = (t, report t.rs) ∧ RunEnds cfg s t (report t.rs)

/-- 41_executor.md section 5: with the full memory and an INX at every address a run never ends; PC wraps
from 0xFFFF to 0x0000 and X counts modulo 256 (the spec's decision D3, log 7). That the byte 0xE8 is INX is the
canonical registry's general knowledge (30_encoding.md section 3, log 2). -/
def Obligations.FullMemoryRunMayNeverEnd : Prop :=
  ∀ (s : State), s.rs = .running → (∀ a, a < 0x10000 → s.mem.read a = 0xE8) →
    (∀ n, ∃ t, hostRun cfgFullMemory n s = (t, .budgetExhausted) ∧
      t.pc.toNat = (s.pc.toNat + n) % 0x10000 ∧ t.x.toNat = (s.x.toNat + n) % 256 ∧ t.mem = s.mem) ∧
    ∀ t r, ¬ RunEnds cfgFullMemory s t r

/-- The host's own run of the core, step by step, is the spec's `run` with that budget under CFG_OBSERVED: it
always answers a next state. -/
def Obligations.CoreRunIsHostRun : Prop :=
  ∀ (n : Nat) (s : State), Host.Core.run Sys2Proof.core n s = .next (hostRun cfgObserved n s).1

/-! ### Invariants -/

/-- Every step keeps the invariant: memory canonical and inside MEM_SIZE, the status byte one of 0x00, 0x02 and
0x80, a fault that the configuration can raise. -/
def Obligations.StepKeepsInvariant : Prop :=
  ∀ s t : State, s.Inv cfgObserved → step s = .next t → t.Inv cfgObserved

/-- The invariant holds at reset. -/
def Obligations.ResetMeetsInvariant : Prop := State.reset.Inv cfgObserved

/-- Every state reached from power-on by host commands meets the invariant, in every configuration; so the
undefined status bits are 0 in all of them (10_state.md section 3). -/
def Obligations.ReachableStatesMeetInvariant : Prop :=
  ∀ (cfg : Config) (s : State), Reachable cfg s →
    s.Inv cfg ∧ (s.p = 0x00 ∨ s.p = 0x02 ∨ s.p = 0x80)

/-! ### Reset and the host's commands -/

/-- 10_state.md section 6: power-on zeroes everything and leaves Ready; the model's reset state is the `reset`
command on it (log 5), with PC at the vector's value 0x0000. -/
def Obligations.ResetStateIsResetAfterPowerOn : Prop :=
  (∀ cfg, hostReset cfg State.powerOn = State.reset) ∧
  (∀ b, State.powerOn.mem.read b = 0 ∧ State.reset.mem.read b = 0) ∧
  State.powerOn = { State.reset with rs := .ready } ∧
  (State.reset.a = 0 ∧ State.reset.x = 0 ∧ State.reset.y = 0 ∧ State.reset.p = 0 ∧ State.reset.pc = 0 ∧
    State.reset.rs = .running)

/-- 70_reset_and_hazards.md section 3: `reset` zeroes A, X and P, loads PC from the vector, starts the CORE, and
leaves Y and memory; it cannot fault. -/
def Obligations.ResetCommandEffect : Prop :=
  ∀ (cfg : Config) (s : State),
    ∃ v : Word, hostReset cfg s = { s with a := 0, x := 0, p := 0, pc := v, rs := .running } ∧
      v.toNat = (s.mem.read 0xFFFD).toNat * 256 + (s.mem.read 0xFFFC).toNat

/-- 70_reset_and_hazards.md section 3: `load` refuses a sequence that does not fit and changes nothing (the
spec's decision D11, log 16); otherwise it writes the bytes from 0x8000 on and then the vector 0x8000, and
nothing else. -/
def Obligations.LoadPlacesProgramAndVector : Prop :=
  ∀ (cfg : Config) (bytes : List Byte) (s : State), s.mem.wf = true →
    (cfg.memSize.bytes < 0x8000 + bytes.length → hostLoad cfg bytes s = (s, .loadTooLong)) ∧
    (0x8000 + bytes.length ≤ cfg.memSize.bytes →
      ∃ m, hostLoad cfg bytes s = ({ s with mem := m }, .done) ∧
        m.read 0xFFFC = 0x00 ∧ m.read 0xFFFD = 0x80 ∧
        (∀ k (h : k < bytes.length), 0x8000 + k ≠ 0xFFFC → 0x8000 + k ≠ 0xFFFD →
          m.read (0x8000 + k) = bytes[k]) ∧
        (∀ b, b ≠ 0xFFFC → b ≠ 0xFFFD → b < 0x8000 ∨ 0x8000 + bytes.length ≤ b → m.read b = s.mem.read b))

/-- 70_reset_and_hazards.md section 3: loading the same bytes again changes nothing. -/
def Obligations.LoadIsIdempotent : Prop :=
  ∀ (cfg : Config) (bytes : List Byte) (s : State), s.mem.wf = true →
    hostLoad cfg bytes (hostLoad cfg bytes s).1 = hostLoad cfg bytes s

/-- 70_reset_and_hazards.md section 3: the host's `read` and `write`, refused without effect out of range (the
spec's decision D13, log 19). -/
def Obligations.HostReadAndWrite : Prop :=
  ∀ (cfg : Config) (a : Word) (v : Byte) (s : State), s.mem.wf = true →
    (inRange cfg a = true →
      hostRead cfg a s = (s, .byte (s.mem.read a.toNat)) ∧
      ∃ m, hostWrite cfg a v s = ({ s with mem := m }, .done) ∧ m.read a.toNat = v ∧
        ∀ b, b ≠ a.toNat → m.read b = s.mem.read b) ∧
    (inRange cfg a = false →
      hostRead cfg a s = (s, .outOfRange) ∧ hostWrite cfg a v s = (s, .outOfRange))

/-- 70_reset_and_hazards.md section 4 (the spec's decision D8, log 12): each command in each run state. Only
`reset` (alone or in load_and_run) leaves Ready, Halted and Faulted; load, read and write keep the run state
and every register. Every command ends in at most one way, and always ends but for `run()` in Running and
load_and_run, which may be a hang. -/
def Obligations.CommandsInEachRunState : Prop :=
  ∀ (cfg : Config) (c : Command) (s : State),
    (∀ t r, CommandEnds cfg c s t r →
      (c = .reset → t.rs = .running) ∧
      (s.rs ≠ .running → (c = .step ∨ ∃ b, c = .run b) → t = s ∧ r = report s.rs) ∧
      (((∃ bytes, c = .load bytes) ∨ (∃ a, c = .read a) ∨ ∃ a v, c = .write a v) → t = { s with mem := t.mem }) ∧
      (s.rs ≠ .running → t.rs ≠ s.rs → c = .reset ∨ ∃ bytes, c = .loadAndRun bytes) ∧
      ∀ t' r', CommandEnds cfg c s t' r' → t' = t ∧ r' = r) ∧
    ((c = .run none → s.rs ≠ .running) → (∀ bytes, c ≠ .loadAndRun bytes) → ∃ t r, CommandEnds cfg c s t r)

/-- 70_reset_and_hazards.md section 3: load_and_run ends as a run without a budget from 0x8000 with A, X and P
zero, whatever came before, and with Y as it was; or with the refusal of `load`, nothing done. Its reply is that
refusal, Halted or Faulted, never an exhausted budget, and with the observed memory and a well-formed registry it
always ends. -/
def Obligations.LoadAndRunStartsAtOrigin : Prop :=
  ∀ (cfg : Config) (bytes : List Byte) (s : State), s.mem.wf = true →
    (0x8000 + bytes.length ≤ cfg.memSize.bytes → ∀ t r, LoadAndRunEnds cfg bytes s t r ↔
      RunEnds cfg { a := 0, x := 0, y := s.y, p := 0, pc := 0x8000, rs := .running,
                    mem := (hostLoad cfg bytes s).1.mem } t r) ∧
    (cfg.memSize.bytes < 0x8000 + bytes.length → ∀ t r, LoadAndRunEnds cfg bytes s t r ↔
      t = s ∧ r = .loadTooLong) ∧
    (∀ t r, LoadAndRunEnds cfg bytes s t r → r = .loadTooLong ∨ r = .halted ∨ ∃ f, r = .faulted f) ∧
    (cfg.memSize = .observed → Registry.wf cfg.registry = true → ∃ t r, LoadAndRunEnds cfg bytes s t r)

/-! ### Encoding -/

/-- Words written out from the encoding column of the opcode table, one of each kind and format (log 2). -/
def Obligations.SampleWordsDecode : Prop :=
  decode [0b10101001, 0x05] = .ok (.ldaImm 0x05, []) ∧
  decode [0b10110101, 0x80] = .ok (.ldaZpX 0x80, []) ∧
  decode [0b10111101, 0x00, 0x20] = .ok (.ldaAbsX 0x2000, []) ∧
  decode [0b10000101, 0x16] = .ok (.staZp 0x16, []) ∧
  decode [0b10001101, 0x34, 0x12] = .ok (.staAbs 0x1234, []) ∧
  decode [0b10101010] = .ok (.tax, []) ∧ decode [0b10101000] = .ok (.tay, []) ∧
  decode [0b11101000] = .ok (.inx, []) ∧ decode [0b00000000] = .ok (.brk, [])

/-- Decode and encode agree: for every instruction with every operand, whatever bytes follow; and an encoding
has the length its registry entry gives. -/
def Obligations.DecodeInvertsEncode : Prop :=
  ∀ (i : Instr) (rest : List Byte), i.wf regCanon = true →
    decode (encode i ++ rest) = .ok (i, rest) ∧
    ∃ e, lookup regCanon (opcode i) = some e ∧ e.kind = i.kind ∧ e.mode = i.mode ∧
      e.len.bytes = (encode i).length

/-- The other direction: bytes that decode begin with the encoding of what they decode to, so each word has
one meaning. -/
def Obligations.DecodedBytesAreTheEncoding : Prop :=
  ∀ (bytes rest : List Byte) (i : Instr), decode bytes = .ok (i, rest) → bytes = encode i ++ rest

/-- 30_encoding.md section 5: a byte is rejected as unimplemented exactly when it is none of the 19 listed
(log 2), and decoding fails otherwise only for want of operand bytes. -/
def Obligations.DecoderRejectsUnlistedBytes : Prop :=
  ∀ (b : Byte) (rest : List Byte),
    (decode (b :: rest) = .error (.unimplementedOpcode b) ↔
      b ∉ ([0x00, 0x81, 0x85, 0x8D, 0x91, 0x95, 0x99, 0x9D, 0xA1, 0xA5, 0xA8, 0xA9, 0xAA, 0xAD, 0xB1, 0xB5,
        0xB9, 0xBD, 0xE8] : List Byte)) ∧
    (∀ e, decode (b :: rest) = .error e → e = .unimplementedOpcode b ∨
      (e = .missingOperand b ∧ rest.length < 2))

/-- 30_encoding.md section 2: the canonical registry is well-formed, has 19 entries, at most one per byte. -/
def Obligations.CanonicalRegistryIsWellFormed : Prop :=
  Registry.wf regCanon = true ∧ Registry.uniqueKeys regCanon = true ∧ regCanon.length = 19 ∧
  ((List.range 256).filter fun b => (lookup regCanon (BitVec.ofNat 8 b)).isNone).length = 237

/-- A placed instruction is the one the very next step runs (the model's way to put a program in place, log 6):
for every canonical state and every word the decoder accepts. -/
def Obligations.PlacedInstructionRunsNext : Prop :=
  ∀ (s : State) (nbits w : Nat) (i : Instr), s.mem.wf = true → decodeTableWord nbits w = some i →
    ∃ t : State, s.withFetchWord nbits w = t ∧ t.rs = .running ∧ t.a = s.a ∧ t.x = s.x ∧ t.y = s.y ∧ t.p = s.p ∧
      (s.pc.toNat + 3 ≤ 0xFFFF → t.pc = s.pc) ∧
      step t = exec i { t with pc := t.pc + 1 }

end
end

