-- ==== Sys2Proof/Laws/Flags.lean ====
section
/-! SUPPORT. What SetZN leaves in the status byte (R90), bit by bit, and the three values the status byte of
a reachable state can take (R19). -/

namespace Sys2Proof.Machine

theorem getLsbD_eq_of_lt_eight {u : Byte} {f : Nat → Bool} (h : ∀ i < 8, u.getLsbD i = f i)
    (hf : ∀ i, 8 ≤ i → f i = false) (i : Nat) : u.getLsbD i = f i := by
  by_cases hi : i < 8
  · exact h i hi
  · rw [BitVec.getLsbD_of_ge _ _ (by omega), hf i (by omega)]

theorem zeroMask_getLsbD (i : Nat) : (0x02 : Byte).getLsbD i = decide (i = 1) :=
  getLsbD_eq_of_lt_eight (f := fun i => decide (i = 1)) (by decide) (fun i hi => by simp; omega) i

theorem negativeMask_getLsbD (i : Nat) : (0x80 : Byte).getLsbD i = decide (i = 7) :=
  getLsbD_eq_of_lt_eight (f := fun i => decide (i = 7)) (by decide) (fun i hi => by simp; omega) i

theorem keptMask_getLsbD (i : Nat) :
    (0x7D : Byte).getLsbD i = (decide (i < 8) && decide (i ≠ 1) && decide (i ≠ 7)) :=
  getLsbD_eq_of_lt_eight (f := fun i => decide (i < 8) && decide (i ≠ 1) && decide (i ≠ 7)) (by decide)
    (fun i hi => by simp; omega) i

theorem zeroBit_getLsbD (v : Byte) (i : Nat) :
    (zeroBit v).getLsbD i = (decide (i = 1) && decide (v = 0)) := by
  unfold zeroBit
  split
  · rename_i h; rw [zeroMask_getLsbD, decide_eq_true h, Bool.and_true]
  · rename_i h; simp only [h, decide_false, Bool.and_false]; exact BitVec.getLsbD_zero

theorem negativeBit_getLsbD (v : Byte) (i : Nat) :
    (negativeBit v).getLsbD i = (decide (i = 7) && v.getLsbD 7) := by
  unfold negativeBit
  split
  · rename_i h; rw [negativeMask_getLsbD, h, Bool.and_true]
  · rename_i h; simp only [h, Bool.and_false]; exact BitVec.getLsbD_zero

/-- Every bit of the status byte after SetZN (R90). -/
theorem znStatus_getLsbD (p v : Byte) (i : Nat) :
    (znStatus p v).getLsbD i =
      if i = 1 then decide (v = 0) else if i = 7 then v.getLsbD 7 else p.getLsbD i := by
  unfold znStatus
  rw [BitVec.getLsbD_or, BitVec.getLsbD_or, BitVec.getLsbD_and, keptMask_getLsbD, zeroBit_getLsbD,
    negativeBit_getLsbD]
  by_cases h1 : i = 1
  · subst h1; simp
  · by_cases h7 : i = 7
    · subst h7; simp
    · by_cases h8 : i < 8
      · simp [h1, h7, h8]
      · simp [h1, h7, h8, BitVec.getLsbD_of_ge p i (by omega)]

/-- A status byte of the three legal values stays one of them under SetZN (R19). -/
theorem znStatus_legal {p : Byte} (v : Byte) (h : statusLegal p = true) :
    statusLegal (znStatus p v) = true := by
  have hp : p &&& 0x7D = 0 := by
    simp only [statusLegal, Bool.or_eq_true, beq_iff_eq] at h
    rcases h with (rfl | rfl) | rfl <;> decide
  unfold znStatus negativeBit zeroBit
  rw [hp]
  by_cases hz : v = 0
  · subst hz; decide
  · by_cases hn : v.getLsbD 7 = true <;> simp only [hz, hn, if_true, if_false] <;> decide

end Sys2Proof.Machine
end

