-- ==== Sys2Proof/Laws/Memory.lean ====
section
/-! SUPPORT. The laws of memory as data: a read after a write, every memory operation keeps the canonical
form, and reset memory has it. -/

namespace Sys2Proof.Machine

@[simp] theorem read_nil (a : Nat) : Memory.read [] a = 0 := rfl

theorem read_listed (b : Nat) (w : Byte) (m : Memory) (a : Nat) :
    Memory.read ((b, w) :: m) a = if b = a then w else Memory.read m a := rfl

/-- A byte in front of a list is read there, and the list elsewhere, if the list does not list it. -/
theorem read_cons (a : Nat) (v : Byte) (m : Memory) (c : Nat) (h : Memory.read m a = 0) :
    Memory.read (Memory.cons a v m) c = if a = c then v else Memory.read m c := by
  unfold Memory.cons
  split
  · rename_i hv
    split
    · subst_vars; simpa [unlistedByte] using h
    · rfl
  · rfl

theorem read_cons_other (a : Nat) (v : Byte) (m : Memory) (c : Nat) (h : c ≠ a) :
    Memory.read (Memory.cons a v m) c = Memory.read m c := by
  unfold Memory.cons
  split
  · rfl
  · simp [read_listed, Ne.symm h]

/-- Nothing is listed below the least address of a canonical list. -/
theorem read_below_of_wfFrom {m : Memory} {lo a : Nat} (h : Memory.wfFrom lo m = true) (ha : a < lo) :
    Memory.read m a = 0 := by
  induction m generalizing lo with
  | nil => rfl
  | cons c m ih =>
    obtain ⟨b, w⟩ := c
    simp only [Memory.wfFrom, Bool.and_eq_true, decide_eq_true_eq] at h
    rw [read_listed, if_neg (by omega)]
    exact ih h.2 (by omega)

theorem wfFrom_mono {m : Memory} {lo lo' : Nat} (h : Memory.wfFrom lo m = true) (hl : lo' ≤ lo) :
    Memory.wfFrom lo' m = true := by
  cases m with
  | nil => rfl
  | cons c m =>
    obtain ⟨b, w⟩ := c
    simp only [Memory.wfFrom, Bool.and_eq_true, decide_eq_true_eq] at h ⊢
    exact ⟨⟨by omega, h.1.2⟩, h.2⟩

theorem wfFrom_cons {m : Memory} {lo a : Nat} {v : Byte} (h : Memory.wfFrom (a + 1) m = true)
    (hl : lo ≤ a) : Memory.wfFrom lo (Memory.cons a v m) = true := by
  unfold Memory.cons
  split
  · exact wfFrom_mono h (by omega)
  · rename_i hv
    simp [Memory.wfFrom, hl, hv, h]

theorem wfFrom_write {m : Memory} {lo a : Nat} {v : Byte} (h : Memory.wfFrom lo m = true)
    (hl : lo ≤ a) : Memory.wfFrom lo (Memory.write m a v) = true := by
  induction m generalizing lo with
  | nil => exact wfFrom_cons rfl hl
  | cons c m ih =>
    obtain ⟨b, w⟩ := c
    have h' := h
    simp only [Memory.wfFrom, Bool.and_eq_true, decide_eq_true_eq] at h
    unfold Memory.write
    split
    · refine wfFrom_cons ?_ hl
      simp [Memory.wfFrom, h.1.2, h.2]; omega
    · split
      · subst_vars; exact wfFrom_cons h.2 hl
      · simp only [Memory.wfFrom, Bool.and_eq_true, decide_eq_true_eq]
        exact ⟨h.1, ih h.2 (by omega)⟩

/-- A write keeps the canonical form. -/
@[simp] theorem write_wf {m : Memory} {a : Nat} {v : Byte} (h : m.wf = true) :
    (m.write a v).wf = true := wfFrom_write h (Nat.zero_le _)

@[simp] theorem writeBytes_wf {m : Memory} {a : Nat} {bs : List Byte} (h : m.wf = true) :
    (m.writeBytes a bs).wf = true := by
  induction bs generalizing m a with
  | nil => exact h
  | cons b bs ih => exact ih (write_wf h)

@[simp] theorem empty_wf : Memory.wf [] = true := rfl

/-- Memory at reset is in the canonical form. -/
theorem reset_mem_wf : State.reset.mem.wf = true := rfl

/-- A write leaves every other address as it was, whatever the list. -/
theorem read_write_other (m : Memory) (a : Nat) (v : Byte) {c : Nat} (h : c ≠ a) :
    (m.write a v).read c = m.read c := by
  induction m with
  | nil => exact read_cons_other a v [] c h
  | cons d m ih =>
    obtain ⟨b, w⟩ := d
    unfold Memory.write
    split
    · exact read_cons_other _ _ _ _ h
    · split
      · subst_vars
        rw [read_cons_other _ _ _ _ h, read_listed, if_neg (Ne.symm h)]
      · rw [read_listed, read_listed, ih]

theorem read_write_same_from {m : Memory} {lo : Nat} (a : Nat) (v : Byte)
    (h : Memory.wfFrom lo m = true) : (m.write a v).read a = v := by
  induction m generalizing lo with
  | nil => rw [Memory.write, read_cons _ _ _ _ rfl, if_pos rfl]
  | cons d m ih =>
    obtain ⟨b, w⟩ := d
    have h' := h
    simp only [Memory.wfFrom, Bool.and_eq_true, decide_eq_true_eq] at h
    unfold Memory.write
    split
    · rw [read_cons _ _ _ _ (read_below_of_wfFrom (wfFrom_mono (lo' := b) (lo := b) ?_ (by omega)) ‹_›),
        if_pos rfl]
      simp [Memory.wfFrom, h.1.2, h.2]
    · split
      · subst_vars
        rw [read_cons _ _ _ _ (read_below_of_wfFrom h.2 (by omega)), if_pos rfl]
      · rw [read_listed, if_neg (by omega), ih h.2]

/-- A read after a write to the same address gives the value written. -/
theorem read_write_same {m : Memory} (a : Nat) (v : Byte) (h : m.wf = true) :
    (m.write a v).read a = v := read_write_same_from a v h

theorem read_write {m : Memory} (a : Nat) (v : Byte) (c : Nat) (h : m.wf = true) :
    (m.write a v).read c = if c = a then v else m.read c := by
  split
  · subst_vars; exact read_write_same _ _ h
  · exact read_write_other _ _ _ ‹_›

/-! ### The bound on listed addresses -/

theorem below_cons {n a : Nat} {v : Byte} {m : Memory} (h : m.below n = true) (ha : a < n) :
    (Memory.cons a v m).below n = true := by
  unfold Memory.cons
  split
  · exact h
  · simpa [Memory.below, ha] using h

/-- A write below a bound keeps the bound. -/
theorem write_below {n a : Nat} {v : Byte} {m : Memory} (h : m.below n = true) (ha : a < n) :
    (m.write a v).below n = true := by
  induction m with
  | nil => exact below_cons rfl ha
  | cons d m ih =>
    obtain ⟨b, w⟩ := d
    have hb : b < n ∧ Memory.below n m = true := by simpa [Memory.below] using h
    unfold Memory.write
    split
    · exact below_cons h ha
    · split
      · exact below_cons hb.2 ha
      · simpa [Memory.below, hb.1] using ih hb.2

theorem writeBytes_below {n a : Nat} {bs : List Byte} {m : Memory} (h : m.below n = true)
    (ha : a + bs.length ≤ n) : (m.writeBytes a bs).below n = true := by
  induction bs generalizing m a with
  | nil => exact h
  | cons b bs ih =>
    simp only [List.length_cons] at ha
    exact ih (write_below h (by omega)) (by omega)

/-- Writing consecutive bytes: each is read back, and every other address is as it was. -/
theorem read_writeBytes {m : Memory} (a : Nat) (bs : List Byte) (c : Nat) (h : m.wf = true) :
    (m.writeBytes a bs).read c =
      if hc : a ≤ c ∧ c < a + bs.length then bs[c - a]'(by omega) else m.read c := by
  induction bs generalizing m a with
  | nil => simp [Memory.writeBytes]
  | cons b bs ih =>
    rw [Memory.writeBytes, ih (a + 1) (write_wf h), read_write _ _ _ h]
    by_cases h1 : a + 1 ≤ c ∧ c < a + 1 + bs.length
    · have e : c - a = (c - (a + 1)) + 1 := by omega
      rw [dif_pos h1, dif_pos (by simp only [List.length_cons]; omega)]
      simp only [e, List.getElem_cons_succ]
    · rw [dif_neg h1]
      by_cases h2 : c = a
      · subst h2; simp
      · rw [if_neg h2, dif_neg (by simp only [List.length_cons]; omega)]

end Sys2Proof.Machine
end

