-- ==== Sys2Proof/Laws/State.lean ====
section
/-! SUPPORT. One lemma per field per update of State, and per field for `advance`, `raise` and `setZN`, each
true by rfl: no later proof unfolds a record update. -/

namespace Sys2Proof.Machine

@[simp] theorem setA_a (s : State) (v : Byte) : (s.setA v).a = v := rfl
@[simp] theorem setA_x (s : State) (v : Byte) : (s.setA v).x = s.x := rfl
@[simp] theorem setA_y (s : State) (v : Byte) : (s.setA v).y = s.y := rfl
@[simp] theorem setA_p (s : State) (v : Byte) : (s.setA v).p = s.p := rfl
@[simp] theorem setA_pc (s : State) (v : Byte) : (s.setA v).pc = s.pc := rfl
@[simp] theorem setA_rs (s : State) (v : Byte) : (s.setA v).rs = s.rs := rfl
@[simp] theorem setA_mem (s : State) (v : Byte) : (s.setA v).mem = s.mem := rfl

@[simp] theorem setX_a (s : State) (v : Byte) : (s.setX v).a = s.a := rfl
@[simp] theorem setX_x (s : State) (v : Byte) : (s.setX v).x = v := rfl
@[simp] theorem setX_y (s : State) (v : Byte) : (s.setX v).y = s.y := rfl
@[simp] theorem setX_p (s : State) (v : Byte) : (s.setX v).p = s.p := rfl
@[simp] theorem setX_pc (s : State) (v : Byte) : (s.setX v).pc = s.pc := rfl
@[simp] theorem setX_rs (s : State) (v : Byte) : (s.setX v).rs = s.rs := rfl
@[simp] theorem setX_mem (s : State) (v : Byte) : (s.setX v).mem = s.mem := rfl

@[simp] theorem setY_a (s : State) (v : Byte) : (s.setY v).a = s.a := rfl
@[simp] theorem setY_x (s : State) (v : Byte) : (s.setY v).x = s.x := rfl
@[simp] theorem setY_y (s : State) (v : Byte) : (s.setY v).y = v := rfl
@[simp] theorem setY_p (s : State) (v : Byte) : (s.setY v).p = s.p := rfl
@[simp] theorem setY_pc (s : State) (v : Byte) : (s.setY v).pc = s.pc := rfl
@[simp] theorem setY_rs (s : State) (v : Byte) : (s.setY v).rs = s.rs := rfl
@[simp] theorem setY_mem (s : State) (v : Byte) : (s.setY v).mem = s.mem := rfl

@[simp] theorem setP_a (s : State) (v : Byte) : (s.setP v).a = s.a := rfl
@[simp] theorem setP_x (s : State) (v : Byte) : (s.setP v).x = s.x := rfl
@[simp] theorem setP_y (s : State) (v : Byte) : (s.setP v).y = s.y := rfl
@[simp] theorem setP_p (s : State) (v : Byte) : (s.setP v).p = v := rfl
@[simp] theorem setP_pc (s : State) (v : Byte) : (s.setP v).pc = s.pc := rfl
@[simp] theorem setP_rs (s : State) (v : Byte) : (s.setP v).rs = s.rs := rfl
@[simp] theorem setP_mem (s : State) (v : Byte) : (s.setP v).mem = s.mem := rfl

@[simp] theorem setPc_a (s : State) (v : Word) : (s.setPc v).a = s.a := rfl
@[simp] theorem setPc_x (s : State) (v : Word) : (s.setPc v).x = s.x := rfl
@[simp] theorem setPc_y (s : State) (v : Word) : (s.setPc v).y = s.y := rfl
@[simp] theorem setPc_p (s : State) (v : Word) : (s.setPc v).p = s.p := rfl
@[simp] theorem setPc_pc (s : State) (v : Word) : (s.setPc v).pc = v := rfl
@[simp] theorem setPc_rs (s : State) (v : Word) : (s.setPc v).rs = s.rs := rfl
@[simp] theorem setPc_mem (s : State) (v : Word) : (s.setPc v).mem = s.mem := rfl

@[simp] theorem setRs_a (s : State) (v : RunState) : (s.setRs v).a = s.a := rfl
@[simp] theorem setRs_x (s : State) (v : RunState) : (s.setRs v).x = s.x := rfl
@[simp] theorem setRs_y (s : State) (v : RunState) : (s.setRs v).y = s.y := rfl
@[simp] theorem setRs_p (s : State) (v : RunState) : (s.setRs v).p = s.p := rfl
@[simp] theorem setRs_pc (s : State) (v : RunState) : (s.setRs v).pc = s.pc := rfl
@[simp] theorem setRs_rs (s : State) (v : RunState) : (s.setRs v).rs = v := rfl
@[simp] theorem setRs_mem (s : State) (v : RunState) : (s.setRs v).mem = s.mem := rfl

@[simp] theorem setMem_a (s : State) (v : Memory) : (s.setMem v).a = s.a := rfl
@[simp] theorem setMem_x (s : State) (v : Memory) : (s.setMem v).x = s.x := rfl
@[simp] theorem setMem_y (s : State) (v : Memory) : (s.setMem v).y = s.y := rfl
@[simp] theorem setMem_p (s : State) (v : Memory) : (s.setMem v).p = s.p := rfl
@[simp] theorem setMem_pc (s : State) (v : Memory) : (s.setMem v).pc = s.pc := rfl
@[simp] theorem setMem_rs (s : State) (v : Memory) : (s.setMem v).rs = s.rs := rfl
@[simp] theorem setMem_mem (s : State) (v : Memory) : (s.setMem v).mem = v := rfl

@[simp] theorem advance_a (k : Word) (s : State) : (advance k s).a = s.a := rfl
@[simp] theorem advance_x (k : Word) (s : State) : (advance k s).x = s.x := rfl
@[simp] theorem advance_y (k : Word) (s : State) : (advance k s).y = s.y := rfl
@[simp] theorem advance_p (k : Word) (s : State) : (advance k s).p = s.p := rfl
@[simp] theorem advance_pc (k : Word) (s : State) : (advance k s).pc = s.pc + k := rfl
@[simp] theorem advance_rs (k : Word) (s : State) : (advance k s).rs = s.rs := rfl
@[simp] theorem advance_mem (k : Word) (s : State) : (advance k s).mem = s.mem := rfl

@[simp] theorem raise_a (f : Fault) (s : State) : (raise f s).a = s.a := rfl
@[simp] theorem raise_x (f : Fault) (s : State) : (raise f s).x = s.x := rfl
@[simp] theorem raise_y (f : Fault) (s : State) : (raise f s).y = s.y := rfl
@[simp] theorem raise_p (f : Fault) (s : State) : (raise f s).p = s.p := rfl
@[simp] theorem raise_pc (f : Fault) (s : State) : (raise f s).pc = s.pc := rfl
@[simp] theorem raise_rs (f : Fault) (s : State) : (raise f s).rs = .faulted f := rfl
@[simp] theorem raise_mem (f : Fault) (s : State) : (raise f s).mem = s.mem := rfl

@[simp] theorem setZN_a (v : Byte) (s : State) : (setZN v s).a = s.a := rfl
@[simp] theorem setZN_x (v : Byte) (s : State) : (setZN v s).x = s.x := rfl
@[simp] theorem setZN_y (v : Byte) (s : State) : (setZN v s).y = s.y := rfl
@[simp] theorem setZN_p (v : Byte) (s : State) : (setZN v s).p = znStatus s.p v := rfl
@[simp] theorem setZN_pc (v : Byte) (s : State) : (setZN v s).pc = s.pc := rfl
@[simp] theorem setZN_rs (v : Byte) (s : State) : (setZN v s).rs = s.rs := rfl
@[simp] theorem setZN_mem (v : Byte) (s : State) : (setZN v s).mem = s.mem := rfl

@[simp] theorem loadA_a (v : Byte) (len : InstrLen) (s : State) : (loadA v len s).a = v := rfl
@[simp] theorem loadA_x (v : Byte) (len : InstrLen) (s : State) : (loadA v len s).x = s.x := rfl
@[simp] theorem loadA_y (v : Byte) (len : InstrLen) (s : State) : (loadA v len s).y = s.y := rfl
@[simp] theorem loadA_p (v : Byte) (len : InstrLen) (s : State) : (loadA v len s).p = znStatus s.p v := rfl
@[simp] theorem loadA_pc (v : Byte) (len : InstrLen) (s : State) : (loadA v len s).pc = s.pc + len.skip := rfl
@[simp] theorem loadA_rs (v : Byte) (len : InstrLen) (s : State) : (loadA v len s).rs = s.rs := rfl
@[simp] theorem loadA_mem (v : Byte) (len : InstrLen) (s : State) : (loadA v len s).mem = s.mem := rfl

@[simp] theorem tax_a (s : State) : (tax s).a = s.a := rfl
@[simp] theorem tax_x (s : State) : (tax s).x = s.a := rfl
@[simp] theorem tax_y (s : State) : (tax s).y = s.y := rfl
@[simp] theorem tax_p (s : State) : (tax s).p = znStatus s.p s.a := rfl
@[simp] theorem tax_pc (s : State) : (tax s).pc = s.pc := rfl
@[simp] theorem tax_rs (s : State) : (tax s).rs = s.rs := rfl
@[simp] theorem tax_mem (s : State) : (tax s).mem = s.mem := rfl

@[simp] theorem inx_a (s : State) : (inx s).a = s.a := rfl
@[simp] theorem inx_x (s : State) : (inx s).x = s.x + 1 := rfl
@[simp] theorem inx_y (s : State) : (inx s).y = s.y := rfl
@[simp] theorem inx_p (s : State) : (inx s).p = znStatus s.p (s.x + 1) := rfl
@[simp] theorem inx_pc (s : State) : (inx s).pc = s.pc := rfl
@[simp] theorem inx_rs (s : State) : (inx s).rs = s.rs := rfl
@[simp] theorem inx_mem (s : State) : (inx s).mem = s.mem := rfl

@[simp] theorem brk_a (s : State) : (brk s).a = s.a := rfl
@[simp] theorem brk_x (s : State) : (brk s).x = s.x := rfl
@[simp] theorem brk_y (s : State) : (brk s).y = s.y := rfl
@[simp] theorem brk_p (s : State) : (brk s).p = s.p := rfl
@[simp] theorem brk_pc (s : State) : (brk s).pc = s.pc := rfl
@[simp] theorem brk_rs (s : State) : (brk s).rs = .halted := rfl
@[simp] theorem brk_mem (s : State) : (brk s).mem = s.mem := rfl

/-- The register TAY takes the flags from (R121). -/
theorem tay_eq (cfg : Config) (s : State) :
    tay cfg s = setZN (match cfg.tayFlagSource with | .fromX => s.x | .fromY => s.a) (s.setY s.a) := by
  unfold tay; cases cfg.tayFlagSource <;> rfl

@[simp] theorem tay_a (cfg : Config) (s : State) : (tay cfg s).a = s.a := by
  rw [tay_eq]; rfl
@[simp] theorem tay_x (cfg : Config) (s : State) : (tay cfg s).x = s.x := by
  rw [tay_eq]; rfl
@[simp] theorem tay_y (cfg : Config) (s : State) : (tay cfg s).y = s.a := by
  rw [tay_eq]; rfl
@[simp] theorem tay_pc (cfg : Config) (s : State) : (tay cfg s).pc = s.pc := by
  rw [tay_eq]; rfl
@[simp] theorem tay_rs (cfg : Config) (s : State) : (tay cfg s).rs = s.rs := by
  rw [tay_eq]; rfl
@[simp] theorem tay_mem (cfg : Config) (s : State) : (tay cfg s).mem = s.mem := by
  rw [tay_eq]; rfl

@[ext] theorem State.ext_fields {s t : State} (ha : s.a = t.a) (hx : s.x = t.x) (hy : s.y = t.y)
    (hp : s.p = t.p) (hpc : s.pc = t.pc) (hrs : s.rs = t.rs) (hm : s.mem = t.mem) : s = t := by
  cases s; cases t; simp_all

end Sys2Proof.Machine
end

