-- ==== Sys2Proof/Laws/Ops.lean ====
section
/-! SUPPORT. What each shared operation can do, said once: the access primitives, the operand addresses, the
resolver, LDA and STA for any entry, the dispatch and the step of any configuration. -/

namespace Sys2Proof.Machine

/-! ### Range -/

theorem inRange_iff (cfg : Config) (a : Word) : inRange cfg a = true ↔ a.toNat < cfg.memSize.bytes := by
  simp [inRange]

theorem bytes_ge (n : MemSize) : 0xFFFF ≤ n.bytes := by cases n <;> decide

/-- Only 0xFFFF can be out of range, and only with the observed memory (R133). -/
theorem not_inRange_iff (cfg : Config) (a : Word) :
    inRange cfg a = false ↔ cfg.memSize = .observed ∧ a = 0xFFFF := by
  have ha := a.isLt
  rw [← Bool.not_eq_true, inRange_iff]
  constructor
  · intro h
    cases hs : cfg.memSize <;> rw [hs] at h <;> simp only [MemSize.bytes] at h
    · exact ⟨rfl, BitVec.eq_of_toNat_eq (by simp; omega)⟩
    · omega
  · rintro ⟨hs, rfl⟩
    rw [hs]; decide

theorem inRange_observed (a : Word) : inRange cfgObserved a = true ↔ a.toNat < 0xFFFF :=
  inRange_iff cfgObserved a

theorem zext16_toNat (b : Byte) : (zext16 b).toNat = b.toNat := by
  have := b.isLt
  simp only [zext16, BitVec.toNat_setWidth]; omega

/-- The zero page is always in range (R133). -/
@[simp] theorem inRange_zext16 (cfg : Config) (b : Byte) : inRange cfg (zext16 b) = true := by
  have := b.isLt
  have := bytes_ge cfg.memSize
  rw [inRange_iff, zext16_toNat]; omega

/-! ### Bytes of words -/

theorem joinBytes_toNat (hi lo : Byte) : (joinBytes hi lo).toNat = hi.toNat * 256 + lo.toNat := by
  have := lo.isLt
  have h : (hi ++ lo).toNat = hi.toNat * 256 + lo.toNat := by
    rw [BitVec.toNat_append, ← Nat.shiftLeft_add_eq_or_of_lt this, Nat.shiftLeft_eq]
  exact h

theorem loByte_toNat (w : Word) : (loByte w).toNat = w.toNat % 256 := by
  simp [loByte]

theorem hiByte_toNat (w : Word) : (hiByte w).toNat = w.toNat / 256 := by
  have := w.isLt
  simp only [hiByte, BitVec.extractLsb'_toNat, Nat.shiftRight_eq_div_pow]
  omega

/-- A word is its two bytes. -/
@[simp] theorem joinBytes_hi_lo (w : Word) : joinBytes (hiByte w) (loByte w) = w := by
  apply BitVec.eq_of_toNat_eq
  rw [joinBytes_toNat, loByte_toNat, hiByte_toNat]; omega

@[simp] theorem hiByte_joinBytes (hi lo : Byte) : hiByte (joinBytes hi lo) = hi := by
  apply BitVec.eq_of_toNat_eq
  have := lo.isLt
  rw [hiByte_toNat, joinBytes_toNat]; omega

@[simp] theorem loByte_joinBytes (hi lo : Byte) : loByte (joinBytes hi lo) = lo := by
  apply BitVec.eq_of_toNat_eq
  have := lo.isLt
  rw [loByte_toNat, joinBytes_toNat]; omega

/-- The successor of an address is taken modulo 65536 (R34). -/
theorem succ_toNat (a : Word) : (a + 1).toNat = (a.toNat + 1) % 0x10000 := by
  rw [BitVec.toNat_add]; rfl

theorem succ_toNat_ne (a : Word) : (a + 1).toNat ≠ a.toNat := by
  have := a.isLt
  rw [succ_toNat]; omega

theorem byteSucc_toNat (b : Byte) : (b + 1).toNat = (b.toNat + 1) % 256 := by
  rw [BitVec.toNat_add]; rfl

/-! ### Effective addresses as numbers -/

theorem eaZeroPage_toNat (d8 : Byte) : (eaZeroPage d8).toNat = d8.toNat := zext16_toNat d8

theorem eaZeroPageIndexed_toNat (d8 index : Byte) :
    (eaZeroPageIndexed d8 index).toNat = (d8.toNat + index.toNat) % 256 := by
  rw [eaZeroPageIndexed, zext16_toNat, BitVec.toNat_add]

theorem eaAbsoluteIndexed_toNat (base : Word) (index : Byte) :
    (eaAbsoluteIndexed base index).toNat = (base.toNat + index.toNat) % 0x10000 := by
  rw [eaAbsoluteIndexed, BitVec.toNat_add, zext16_toNat]

/-- The pointer word at `d8 + x`, both bytes inside the zero page (R78). -/
theorem pointerX_toNat (m : Memory) (d8 x : Byte) :
    (joinBytes (m.read (d8 + x + 1).toNat) (m.read (d8 + x).toNat)).toNat =
      (m.read ((d8.toNat + x.toNat + 1) % 256)).toNat * 256 +
        (m.read ((d8.toNat + x.toNat) % 256)).toNat := by
  rw [joinBytes_toNat, byteSucc_toNat, BitVec.toNat_add, Nat.mod_add_mod]

/-- The pointer word at `d8` with `y` added after it is fetched (R79). -/
theorem pointerY_toNat (m : Memory) (d8 y : Byte) :
    (eaAbsoluteIndexed (joinBytes (m.read (d8 + 1).toNat) (m.read d8.toNat)) y).toNat =
      ((m.read ((d8.toNat + 1) % 256)).toNat * 256 + (m.read (d8.toNat % 256)).toNat + y.toNat) % 0x10000 := by
  have := d8.isLt
  rw [eaAbsoluteIndexed_toNat, joinBytes_toNat, byteSucc_toNat, Nat.mod_eq_of_lt (a := d8.toNat) this]

/-- The operand skip is the length less the opcode byte (R89). -/
theorem skip_eq (len : InstrLen) : len.skip = BitVec.ofNat 16 (len.bytes - 1) := by cases len <;> rfl

theorem succ_add_skip (pc : Word) (len : InstrLen) : pc + 1 + len.skip = pc + BitVec.ofNat 16 len.bytes := by
  cases len <;> rw [BitVec.add_assoc] <;> rfl

/-! ### The access primitives -/

theorem memRead_inRange {cfg : Config} {a : Word} (m : Memory) (h : inRange cfg a = true) :
    memRead cfg m a = .ok (m.read a.toNat) := by simp [memRead, h]

theorem memRead_outOfRange {cfg : Config} {a : Word} (m : Memory) (h : inRange cfg a = false) :
    memRead cfg m a = .error (.memoryOutOfRange a) := by simp [memRead, h]

theorem memWrite_inRange {cfg : Config} {a : Word} (m : Memory) (v : Byte) (h : inRange cfg a = true) :
    memWrite cfg m a v = .ok (m.write a.toNat v) := by simp [memWrite, h]

theorem memWrite_outOfRange {cfg : Config} {a : Word} (m : Memory) (v : Byte)
    (h : inRange cfg a = false) : memWrite cfg m a v = .error (.memoryOutOfRange a) := by
  simp [memWrite, h]

theorem memRead_ok {cfg : Config} {m : Memory} {a : Word} {v : Byte} (h : memRead cfg m a = .ok v) :
    inRange cfg a = true ∧ v = m.read a.toNat := by
  unfold memRead at h; split at h
  · exact ⟨‹_›, by cases h; rfl⟩
  · cases h

theorem memRead_error {cfg : Config} {m : Memory} {a : Word} {f : Fault} (h : memRead cfg m a = .error f) :
    inRange cfg a = false ∧ f = .memoryOutOfRange a := by
  unfold memRead at h; split at h
  · cases h
  · rename_i hn; exact ⟨by simpa using hn, by cases h; rfl⟩

theorem memWrite_ok {cfg : Config} {m m' : Memory} {a : Word} {v : Byte} (h : memWrite cfg m a v = .ok m') :
    inRange cfg a = true ∧ m' = m.write a.toNat v := by
  unfold memWrite at h; split at h
  · exact ⟨‹_›, by cases h; rfl⟩
  · cases h

theorem memWrite_error {cfg : Config} {m : Memory} {a : Word} {v : Byte} {f : Fault}
    (h : memWrite cfg m a v = .error f) : inRange cfg a = false ∧ f = .memoryOutOfRange a := by
  unfold memWrite at h; split at h
  · cases h
  · rename_i hn; exact ⟨by simpa using hn, by cases h; rfl⟩

/-- MemRead(a, 2) with both bytes in range (R35). -/
theorem memRead16_inRange {cfg : Config} {a : Word} (m : Memory) (h : inRange cfg a = true)
    (h' : inRange cfg (a + 1) = true) :
    memRead16 cfg m a = .ok (joinBytes (m.read (a + 1).toNat) (m.read a.toNat)) := by
  simp only [memRead16, memRead_inRange m h, memRead_inRange m h']

theorem memRead16_error {cfg : Config} {m : Memory} {a : Word} {f : Fault}
    (h : memRead16 cfg m a = .error f) :
    (inRange cfg a = false ∧ f = .memoryOutOfRange a) ∨
      (inRange cfg a = true ∧ inRange cfg (a + 1) = false ∧ f = .memoryOutOfRange (a + 1)) := by
  unfold memRead16 at h
  split at h
  · rename_i e; cases h; exact .inl (memRead_error e)
  · rename_i e; split at h
    · rename_i e'; cases h
      exact .inr ⟨(memRead_ok e).1, memRead_error e'⟩
    · cases h

theorem memRead16_ok {cfg : Config} {m : Memory} {a w : Word} (h : memRead16 cfg m a = .ok w) :
    inRange cfg a = true ∧ inRange cfg (a + 1) = true ∧
      w = joinBytes (m.read (a + 1).toNat) (m.read a.toNat) := by
  unfold memRead16 at h
  split at h
  · cases h
  · rename_i e; split at h
    · cases h
    · rename_i e'; cases h
      rw [(memRead_ok e).2, (memRead_ok e').2]
      exact ⟨(memRead_ok e).1, (memRead_ok e').1, rfl⟩

/-! ### The resolver -/

/-- The pointer bytes are in zero page, so the pointer is always read (R78, R79). -/
theorem readPointer_eq (cfg : Config) (m : Memory) (ptr : Byte) :
    readPointer cfg m ptr = .ok (joinBytes (m.read (ptr + 1).toNat) (m.read ptr.toNat)) := by
  simp only [readPointer, memRead_inRange m (inRange_zext16 cfg _), zext16_toNat]

theorem eaIndirectX_eq (cfg : Config) (m : Memory) (d8 x : Byte) :
    eaIndirectX cfg m d8 x = .ok (joinBytes (m.read (d8 + x + 1).toNat) (m.read (d8 + x).toNat)) :=
  readPointer_eq cfg m _

theorem eaIndirectY_eq (cfg : Config) (m : Memory) (d8 y : Byte) :
    eaIndirectY cfg m d8 y =
      .ok (eaAbsoluteIndexed (joinBytes (m.read (d8 + 1).toNat) (m.read d8.toNat)) y) := by
  simp only [eaIndirectY, readPointer_eq]

/-- The faults the resolver can raise (R70, R80): the mode, or an operand byte out of range. -/
theorem resolve_error {cfg : Config} {m : Memory} {mode : Mode} {pc1 : Word} {x y : Byte} {f : Fault}
    (h : resolve cfg m mode pc1 x y = .error f) :
    (mode = .noneAddressing ∧ f = .unsupportedAddressingMode) ∨
      ∃ a, inRange cfg a = false ∧ f = .memoryOutOfRange a := by
  have hb : ∀ k : Byte → Except Fault Word, (∀ d g, k d ≠ .error g) →
      withByteOperand cfg m pc1 k = .error f → ∃ a, inRange cfg a = false ∧ f = .memoryOutOfRange a := by
    intro k hk hw
    unfold withByteOperand at hw
    split at hw
    · rename_i e; cases hw; exact ⟨_, memRead_error e⟩
    · exact absurd hw (hk _ _)
  have hww : ∀ k : Word → Except Fault Word, (∀ d g, k d ≠ .error g) →
      withWordOperand cfg m pc1 k = .error f → ∃ a, inRange cfg a = false ∧ f = .memoryOutOfRange a := by
    intro k hk hw
    unfold withWordOperand at hw
    split at hw
    · rename_i e; cases hw
      rcases memRead16_error e with h | h
      · exact ⟨_, h⟩
      · exact ⟨_, h.2⟩
    · exact absurd hw (hk _ _)
  cases mode
  case immediate => cases h
  case noneAddressing => cases h; exact .inl ⟨rfl, rfl⟩
  case absolute => exact .inr (hww _ (fun _ _ h => by cases h) h)
  case absoluteX => exact .inr (hww _ (fun _ _ h => by cases h) h)
  case absoluteY => exact .inr (hww _ (fun _ _ h => by cases h) h)
  case zeroPage => exact .inr (hb _ (fun _ _ h => by cases h) h)
  case zeroPageX => exact .inr (hb _ (fun _ _ h => by cases h) h)
  case zeroPageY => exact .inr (hb _ (fun _ _ h => by cases h) h)
  case indirectX => exact .inr (hb _ (fun _ _ h => by rw [eaIndirectX_eq] at h; cases h) h)
  case indirectY => exact .inr (hb _ (fun _ _ h => by rw [eaIndirectY_eq] at h; cases h) h)

/-- An address the resolver gives had its operand bytes in range; Immediate reads none. -/
theorem resolve_ok {cfg : Config} {m : Memory} {mode : Mode} {pc1 ea : Word} {x y : Byte}
    (h : resolve cfg m mode pc1 x y = .ok ea) :
    (mode = .immediate ∧ ea = pc1) ∨ (mode.opBytes = 1 ∧ inRange cfg pc1 = true) ∨
      (mode.opBytes = 2 ∧ inRange cfg pc1 = true ∧ inRange cfg (pc1 + 1) = true) := by
  have hb : ∀ k : Byte → Except Fault Word, withByteOperand cfg m pc1 k = .ok ea → inRange cfg pc1 = true := by
    intro k hk; unfold withByteOperand at hk; split at hk
    · cases hk
    · rename_i e; exact (memRead_ok e).1
  have hw : ∀ k : Word → Except Fault Word, withWordOperand cfg m pc1 k = .ok ea →
      inRange cfg pc1 = true ∧ inRange cfg (pc1 + 1) = true := by
    intro k hk; unfold withWordOperand at hk; split at hk
    · cases hk
    · rename_i e; exact ⟨(memRead16_ok e).1, (memRead16_ok e).2.1⟩
  cases mode
  case immediate => cases h; exact .inl ⟨rfl, rfl⟩
  case noneAddressing => cases h
  case absolute => exact .inr (.inr ⟨rfl, hw _ h⟩)
  case absoluteX => exact .inr (.inr ⟨rfl, hw _ h⟩)
  case absoluteY => exact .inr (.inr ⟨rfl, hw _ h⟩)
  case zeroPage => exact .inr (.inl ⟨rfl, hb _ h⟩)
  case zeroPageX => exact .inr (.inl ⟨rfl, hb _ h⟩)
  case zeroPageY => exact .inr (.inl ⟨rfl, hb _ h⟩)
  case indirectX => exact .inr (.inl ⟨rfl, hb _ h⟩)
  case indirectY => exact .inr (.inl ⟨rfl, hb _ h⟩)

/-! ### LDA and STA for any address -/

/-- Everything LDA can do: load, or raise a fault with nothing else changed (R100). -/
theorem lda_cases (cfg : Config) (ea : Except Fault Word) (len : InstrLen) (s : State) :
    (∃ a, ea = .ok a ∧ inRange cfg a = true ∧ lda cfg ea len s = loadA (s.mem.read a.toNat) len s) ∨
    (∃ a, ea = .ok a ∧ inRange cfg a = false ∧ lda cfg ea len s = raise (.memoryOutOfRange a) s) ∨
    (∃ f, ea = .error f ∧ lda cfg ea len s = raise f s) := by
  cases ea with
  | error f => exact .inr (.inr ⟨f, rfl, rfl⟩)
  | ok a =>
    cases h : inRange cfg a
    · exact .inr (.inl ⟨a, rfl, h, by simp only [lda, memRead_outOfRange _ h]⟩)
    · exact .inl ⟨a, rfl, h, by simp only [lda, memRead_inRange _ h]⟩

/-- Everything STA can do: store one byte, or raise a fault with nothing else changed (R110). -/
theorem sta_cases (cfg : Config) (ea : Except Fault Word) (len : InstrLen) (s : State) :
    (∃ a, ea = .ok a ∧ inRange cfg a = true ∧
      sta cfg ea len s = advance len.skip (s.setMem (s.mem.write a.toNat s.a))) ∨
    (∃ a, ea = .ok a ∧ inRange cfg a = false ∧ sta cfg ea len s = raise (.memoryOutOfRange a) s) ∨
    (∃ f, ea = .error f ∧ sta cfg ea len s = raise f s) := by
  cases ea with
  | error f => exact .inr (.inr ⟨f, rfl, rfl⟩)
  | ok a =>
    cases h : inRange cfg a
    · exact .inr (.inl ⟨a, rfl, h, by simp only [sta, memWrite_outOfRange _ _ h]⟩)
    · exact .inl ⟨a, rfl, h, by simp only [sta, memWrite_inRange _ _ h]⟩

/-! ### Dispatch and step for any configuration -/

/-- Everything the dispatch of an entry can do (R85, R92). -/
inductive EntryDoes (cfg : Config) (e : OpcodeEntry) (s : State) : State → Prop
  | load (a : Word) (hk : e.kind = .lda) (hr : resolve cfg s.mem e.mode s.pc s.x s.y = .ok a)
      (ha : inRange cfg a = true) : EntryDoes cfg e s (loadA (s.mem.read a.toNat) e.len s)
  | store (a : Word) (hk : e.kind = .sta) (hr : resolve cfg s.mem e.mode s.pc s.x s.y = .ok a)
      (ha : inRange cfg a = true) :
      EntryDoes cfg e s (advance e.len.skip (s.setMem (s.mem.write a.toNat s.a)))
  | dataFault (a : Word) (hk : e.kind = .lda ∨ e.kind = .sta)
      (hr : resolve cfg s.mem e.mode s.pc s.x s.y = .ok a) (ha : inRange cfg a = false) :
      EntryDoes cfg e s (raise (.memoryOutOfRange a) s)
  | resolverFault (f : Fault) (hk : e.kind = .lda ∨ e.kind = .sta)
      (hr : resolve cfg s.mem e.mode s.pc s.x s.y = .error f) : EntryDoes cfg e s (raise f s)
  | tax (hk : e.kind = .tax) : EntryDoes cfg e s (tax s)
  | tay (hk : e.kind = .tay) : EntryDoes cfg e s (tay cfg s)
  | inx (hk : e.kind = .inx) : EntryDoes cfg e s (inx s)
  | brk (hk : e.kind = .brk) : EntryDoes cfg e s (brk s)

theorem execEntry_does (cfg : Config) (e : OpcodeEntry) (s : State) :
    EntryDoes cfg e s (execEntry cfg e s) := by
  unfold execEntry
  split
  · rename_i hk
    rcases lda_cases cfg (resolve cfg s.mem e.mode s.pc s.x s.y) e.len s with
      ⟨a, h, ha, heq⟩ | ⟨a, h, ha, heq⟩ | ⟨f, h, heq⟩ <;> rw [heq]
    · exact .load a hk h ha
    · exact .dataFault a (.inl hk) h ha
    · exact .resolverFault f (.inl hk) h
  · rename_i hk
    rcases sta_cases cfg (resolve cfg s.mem e.mode s.pc s.x s.y) e.len s with
      ⟨a, h, ha, heq⟩ | ⟨a, h, ha, heq⟩ | ⟨f, h, heq⟩ <;> rw [heq]
    · exact .store a hk h ha
    · exact .dataFault a (.inr hk) h ha
    · exact .resolverFault f (.inr hk) h
  · exact .tax ‹_›
  · exact .tay ‹_›
  · exact .inx ‹_›
  · exact .brk ‹_›

/-- Everything a step of any configuration can do (R85). -/
inductive StepDoes (cfg : Config) (s : State) : State → Prop
  | idle (h : s.rs ≠ .running) : StepDoes cfg s s
  | fetchFault (h : s.rs = .running) (hp : inRange cfg s.pc = false) :
      StepDoes cfg s (raise (.memoryOutOfRange s.pc) s)
  | unimplemented (h : s.rs = .running) (hp : inRange cfg s.pc = true)
      (hl : lookup cfg.registry (s.mem.read s.pc.toNat) = none) :
      StepDoes cfg s (raise (.unimplementedOpcode (s.mem.read s.pc.toNat)) s)
  | entry (e : OpcodeEntry) (t : State) (h : s.rs = .running) (hp : inRange cfg s.pc = true)
      (hl : lookup cfg.registry (s.mem.read s.pc.toNat) = some e)
      (ht : EntryDoes cfg e (advance 1 s) t) : StepDoes cfg s t

theorem stepWith_idle {cfg : Config} {s : State} (h : s.rs ≠ .running) : stepWith cfg s = s := by
  unfold stepWith; split <;> first | rfl | contradiction

theorem stepWith_fetchFault {cfg : Config} {s : State} (h : s.rs = .running)
    (hp : inRange cfg s.pc = false) : stepWith cfg s = raise (.memoryOutOfRange s.pc) s := by
  simp only [stepWith, h, memRead_outOfRange _ hp]

theorem stepWith_unimplemented {cfg : Config} {s : State} (h : s.rs = .running)
    (hp : inRange cfg s.pc = true) (hl : lookup cfg.registry (s.mem.read s.pc.toNat) = none) :
    stepWith cfg s = raise (.unimplementedOpcode (s.mem.read s.pc.toNat)) s := by
  simp only [stepWith, h, memRead_inRange _ hp, hl]

theorem stepWith_entry {cfg : Config} {s : State} {e : OpcodeEntry} (h : s.rs = .running)
    (hp : inRange cfg s.pc = true) (hl : lookup cfg.registry (s.mem.read s.pc.toNat) = some e) :
    stepWith cfg s = execEntry cfg e (advance 1 s) := by
  simp only [stepWith, h, memRead_inRange _ hp, hl]

theorem stepWith_does (cfg : Config) (s : State) : StepDoes cfg s (stepWith cfg s) := by
  by_cases h : s.rs = .running
  · cases hp : inRange cfg s.pc
    · rw [stepWith_fetchFault h hp]; exact .fetchFault h hp
    · cases hl : lookup cfg.registry (s.mem.read s.pc.toNat) with
      | none => rw [stepWith_unimplemented h hp hl]; exact .unimplemented h hp hl
      | some e => rw [stepWith_entry h hp hl]; exact .entry e _ h hp hl (execEntry_does _ _ _)
  · rw [stepWith_idle h]; exact .idle h

end Sys2Proof.Machine
end

