-- ==== Sys2Proof/Laws/Host.lean ====
section
/-! SUPPORT. What each host command can do, said once (70_reset_and_hazards.md), and the accesses of a step that
found an entry. -/

namespace Sys2Proof.Machine

/-! ### Run -/

/-- A machine that is not Running is left as it is by `run` (R154). -/
theorem hostRun_idle (cfg : Config) (n : Nat) {s : State} (h : s.rs ≠ .running) :
    hostRun cfg n s = (s, report s.rs) := by
  cases n <;> simp [hostRun, h]

theorem hostRun_succ (cfg : Config) (n : Nat) {s : State} (h : s.rs = .running) :
    hostRun cfg (n + 1) s = hostRun cfg n (stepWith cfg s) := by
  simp only [hostRun, h, if_true]

/-- Only `run(budget)` reports an exhausted budget (R154). -/
theorem report_ne_budgetExhausted (r : RunState) : report r ≠ .budgetExhausted := by
  cases r <;> exact nofun

/-- Once a run has ended, a larger budget changes nothing. -/
theorem hostRun_ended {cfg : Config} {n : Nat} {s t : State} {r : Reply} (h : hostRun cfg n s = (t, r))
    (hr : r ≠ .budgetExhausted) (k : Nat) : hostRun cfg (n + k) s = (t, r) := by
  induction n generalizing s with
  | zero =>
    by_cases hs : s.rs = .running
    · rw [hostRun, if_pos hs] at h
      cases h; exact absurd rfl hr
    · rw [hostRun_idle cfg _ hs, ← h, hostRun_idle cfg 0 hs]
  | succ n ih =>
    rw [Nat.add_right_comm]
    by_cases hs : s.rs = .running
    · rw [hostRun_succ cfg _ hs] at h ⊢
      exact ih h
    · rw [hostRun_idle cfg _ hs] at h ⊢
      exact h

/-! ### Reset and load -/

/-- Both vector bytes are in range in every configuration (R153). -/
theorem vector_inRange (cfg : Config) :
    inRange cfg resetVector = true ∧ inRange cfg (resetVector + 1) = true := by
  have := bytes_ge cfg.memSize
  simp only [inRange_iff]
  have h1 : resetVector.toNat = 0xFFFC := rfl
  have h2 : (resetVector + 1).toNat = 0xFFFD := rfl
  omega

/-- The whole effect of `reset` (R153). -/
theorem hostReset_eq (cfg : Config) (s : State) :
    hostReset cfg s = { s with
      a := 0, x := 0, p := 0, pc := joinBytes (s.mem.read 0xFFFD) (s.mem.read 0xFFFC), rs := .running } := by
  simp only [hostReset, memRead16_inRange _ (vector_inRange cfg).1 (vector_inRange cfg).2]; rfl

/-- The memory after `load`: the bytes, then the vector's two bytes (R152). -/
theorem loadMemory_eq (cfg : Config) (bytes : List Byte) (m : Memory) :
    loadMemory cfg bytes m = ((m.writeBytes 0x8000 bytes).write 0xFFFC 0x00).write 0xFFFD 0x80 := by
  simp only [loadMemory, memWrite16, memWrite_inRange _ _ (vector_inRange cfg).1,
    memWrite_inRange _ _ (vector_inRange cfg).2]
  rfl

theorem loadMemory_wf (cfg : Config) (bytes : List Byte) {m : Memory} (h : m.wf = true) :
    (loadMemory cfg bytes m).wf = true := by
  rw [loadMemory_eq]; exact write_wf (write_wf (writeBytes_wf h))

theorem hostLoad_fits {cfg : Config} {bytes : List Byte} (s : State)
    (h : 0x8000 + bytes.length ≤ cfg.memSize.bytes) :
    hostLoad cfg bytes s = ({ s with mem := loadMemory cfg bytes s.mem }, .done) := by
  have : loadFits cfg bytes.length = true := decide_eq_true h
  simp only [hostLoad, this, if_true]; rfl

theorem hostLoad_long {cfg : Config} {bytes : List Byte} (s : State)
    (h : cfg.memSize.bytes < 0x8000 + bytes.length) : hostLoad cfg bytes s = (s, .loadTooLong) := by
  have : loadFits cfg bytes.length = false :=
    decide_eq_false (by show ¬ (0x8000 + bytes.length ≤ _); omega)
  simp [hostLoad, this]

/-- Load and reset of a sequence that fits (R155): the vector `load` wrote is the PC `reset` reads. -/
theorem hostLoadAndReset_fits {cfg : Config} {bytes : List Byte} {s : State} (hw : s.mem.wf = true)
    (h : 0x8000 + bytes.length ≤ cfg.memSize.bytes) :
    hostLoadAndReset cfg bytes s =
      ({ a := 0, x := 0, y := s.y, p := 0, pc := 0x8000, rs := .running,
         mem := loadMemory cfg bytes s.mem }, .done) := by
  have hv : joinBytes ((loadMemory cfg bytes s.mem).read 0xFFFD) ((loadMemory cfg bytes s.mem).read 0xFFFC) =
      0x8000 := by
    rw [loadMemory_eq, read_write_same _ _ (write_wf (writeBytes_wf hw)), read_write_other _ _ _ (by decide),
      read_write_same _ _ (writeBytes_wf hw)]
    decide
  simp only [hostLoadAndReset, hostLoad_fits s h, hostReset_eq, hv]

theorem hostLoadAndReset_long {cfg : Config} {bytes : List Byte} {s : State}
    (h : cfg.memSize.bytes < 0x8000 + bytes.length) :
    hostLoadAndReset cfg bytes s = (s, .loadTooLong) := by
  simp only [hostLoadAndReset, hostLoad_long s h]

/-! ### Accesses -/

/-- A step that found an entry makes its fetch, then the entry's accesses up to the first out of range. -/
theorem stepAccesses_entry {cfg : Config} {s : State} {e : OpcodeEntry} (h : s.rs = .running)
    (hp : inRange cfg s.pc = true) (hl : lookup cfg.registry (s.mem.read s.pc.toNat) = some e) :
    stepAccesses cfg s =
      .read s.pc :: (entryAccesses cfg e (advance 1 s)).takeWhile fun c => inRange cfg c.addr := by
  simp only [stepAccesses, h, hl, List.takeWhile_cons, Access.addr, hp, if_true]

theorem resolver_never_writes (mode : Mode) (pc1 : Word) (m : Memory) (x : Byte) (a : Word) :
    Access.write a ∉ operandReads mode pc1 ++ pointerReads m mode pc1 x := by
  cases mode <;> simp [operandReads, pointerReads]

end Sys2Proof.Machine
end

