-- ==== Sys2Proof/Laws/PerInstr.lean ====
section
/-! SUPPORT. Facts about every instruction as syntax, one lemma per constructor: the registry entry its opcode
byte selects is well-formed, has its kind and mode, and has the length of its encoding (R51, R55, R57). -/

namespace Sys2Proof.Laws.CanonEntry

/-- The canonical registry has a well-formed entry for the instruction, of its kind, mode and length. -/
def Statement (i : Sys2Proof.Instr) : Prop :=
  ∃ e, lookup regCanon (opcode i) = some e ∧ e.kind = i.kind ∧ e.mode = i.mode ∧
    e.len.bytes = (encode i).length ∧ e.wf = true ∧ i.wf regCanon = true

theorem brk : Statement .brk :=
  ⟨_, rfl, rfl, rfl, rfl, rfl, rfl⟩

theorem staIndX (v : Byte) : Statement (.staIndX v) :=
  ⟨_, rfl, rfl, rfl, rfl, rfl, rfl⟩

theorem staZp (v : Byte) : Statement (.staZp v) :=
  ⟨_, rfl, rfl, rfl, rfl, rfl, rfl⟩

theorem staAbs (v : Word) : Statement (.staAbs v) :=
  ⟨_, rfl, rfl, rfl, rfl, rfl, rfl⟩

theorem staIndY (v : Byte) : Statement (.staIndY v) :=
  ⟨_, rfl, rfl, rfl, rfl, rfl, rfl⟩

theorem staZpX (v : Byte) : Statement (.staZpX v) :=
  ⟨_, rfl, rfl, rfl, rfl, rfl, rfl⟩

theorem staAbsY (v : Word) : Statement (.staAbsY v) :=
  ⟨_, rfl, rfl, rfl, rfl, rfl, rfl⟩

theorem staAbsX (v : Word) : Statement (.staAbsX v) :=
  ⟨_, rfl, rfl, rfl, rfl, rfl, rfl⟩

theorem ldaIndX (v : Byte) : Statement (.ldaIndX v) :=
  ⟨_, rfl, rfl, rfl, rfl, rfl, rfl⟩

theorem ldaZp (v : Byte) : Statement (.ldaZp v) :=
  ⟨_, rfl, rfl, rfl, rfl, rfl, rfl⟩

theorem tay : Statement .tay :=
  ⟨_, rfl, rfl, rfl, rfl, rfl, rfl⟩

theorem ldaImm (v : Byte) : Statement (.ldaImm v) :=
  ⟨_, rfl, rfl, rfl, rfl, rfl, rfl⟩

theorem tax : Statement .tax :=
  ⟨_, rfl, rfl, rfl, rfl, rfl, rfl⟩

theorem ldaAbs (v : Word) : Statement (.ldaAbs v) :=
  ⟨_, rfl, rfl, rfl, rfl, rfl, rfl⟩

theorem ldaIndY (v : Byte) : Statement (.ldaIndY v) :=
  ⟨_, rfl, rfl, rfl, rfl, rfl, rfl⟩

theorem ldaZpX (v : Byte) : Statement (.ldaZpX v) :=
  ⟨_, rfl, rfl, rfl, rfl, rfl, rfl⟩

theorem ldaAbsY (v : Word) : Statement (.ldaAbsY v) :=
  ⟨_, rfl, rfl, rfl, rfl, rfl, rfl⟩

theorem ldaAbsX (v : Word) : Statement (.ldaAbsX v) :=
  ⟨_, rfl, rfl, rfl, rfl, rfl, rfl⟩

theorem inx : Statement .inx :=
  ⟨_, rfl, rfl, rfl, rfl, rfl, rfl⟩

end Sys2Proof.Laws.CanonEntry
end

