-- ==== Sys2Proof/Laws/Step.lean ====
section
/-! SUPPORT. What fetch and step can do, said once; what an entry found by the registry lookup is; that a
placed instruction is where the next step fetches it. -/

namespace Sys2Proof.Machine

/-! ### The registry lookup -/

theorem lookup_mem {r : Registry} {b : Byte} {e : OpcodeEntry} (h : lookup r b = some e) : (b, e) ∈ r := by
  induction r with
  | nil => cases h
  | cons p r ih =>
    obtain ⟨k, d⟩ := p
    unfold lookup at h
    split at h
    · cases h; subst_vars; exact List.mem_cons_self ..
    · exact List.mem_cons_of_mem _ (ih h)

/-- An entry of a well-formed registry is well-formed (R55). -/
theorem entry_wf {r : Registry} {b : Byte} {e : OpcodeEntry} (hr : Registry.wf r = true)
    (h : lookup r b = some e) : e.wf = true :=
  List.all_eq_true.mp hr _ (lookup_mem h)

theorem regCanon_wf : Registry.wf regCanon = true := by decide

/-! ### The operand bytes -/

theorem operandBytes_none {cfg : Config} {m : Memory} {mode : Mode} {pc1 : Word} (h : mode.opBytes = 0) :
    operandBytes cfg m mode pc1 = .ok [] := by
  simp only [operandBytes, h]

theorem operandBytes_byte_ok {cfg : Config} {m : Memory} {mode : Mode} {pc1 : Word}
    (h : mode.opBytes = 1) (hp : inRange cfg pc1 = true) :
    operandBytes cfg m mode pc1 = .ok [m.read pc1.toNat] := by
  simp only [operandBytes, h, memRead_inRange _ hp]

theorem operandBytes_byte_error {cfg : Config} {m : Memory} {mode : Mode} {pc1 : Word}
    (h : mode.opBytes = 1) (hp : inRange cfg pc1 = false) :
    operandBytes cfg m mode pc1 = .error (.memoryOutOfRange pc1) := by
  simp only [operandBytes, h, memRead_outOfRange _ hp]

theorem operandBytes_word_ok {cfg : Config} {m : Memory} {mode : Mode} {pc1 : Word}
    (h : mode.opBytes = 2) (hp : inRange cfg pc1 = true) (hq : inRange cfg (pc1 + 1) = true) :
    operandBytes cfg m mode pc1 = .ok [m.read pc1.toNat, m.read (pc1 + 1).toNat] := by
  simp only [operandBytes, h, memRead_inRange _ hp, memRead_inRange _ hq]

theorem operandBytes_word_low {cfg : Config} {m : Memory} {mode : Mode} {pc1 : Word}
    (h : mode.opBytes = 2) (hp : inRange cfg pc1 = false) :
    operandBytes cfg m mode pc1 = .error (.memoryOutOfRange pc1) := by
  simp only [operandBytes, h, memRead_outOfRange _ hp]

theorem operandBytes_word_high {cfg : Config} {m : Memory} {mode : Mode} {pc1 : Word}
    (h : mode.opBytes = 2) (hp : inRange cfg pc1 = true) (hq : inRange cfg (pc1 + 1) = false) :
    operandBytes cfg m mode pc1 = .error (.memoryOutOfRange (pc1 + 1)) := by
  simp only [operandBytes, h, memRead_inRange _ hp, memRead_outOfRange _ hq]

/-! ### Fetch and step -/

theorem fetch_idle {s : State} (h : s.rs ≠ .running) : fetch s = .idle := by
  unfold fetch; split <;> first | rfl | contradiction

theorem fetch_outOfRange {s : State} (h : s.rs = .running) (hp : inRange cfgObserved s.pc = false) :
    fetch s = .stopped (raise (.memoryOutOfRange s.pc) s) := by
  simp only [fetch, h, memRead_outOfRange _ hp]

theorem fetch_unimplemented {s : State} (h : s.rs = .running) (hp : inRange cfgObserved s.pc = true)
    (hl : lookup regCanon (s.mem.read s.pc.toNat) = none) :
    fetch s = .stopped (raise (.unimplementedOpcode (s.mem.read s.pc.toNat)) s) := by
  have hl' : lookup cfgObserved.registry (s.mem.read s.pc.toNat) = none := hl
  simp only [fetch, h, memRead_inRange _ hp, hl']

theorem fetch_operandFault {s : State} {e : OpcodeEntry} {f : Fault} (h : s.rs = .running)
    (hp : inRange cfgObserved s.pc = true) (hl : lookup regCanon (s.mem.read s.pc.toNat) = some e)
    (ho : operandBytes cfgObserved s.mem e.mode (s.pc + 1) = .error f) :
    fetch s = .stopped (raise f (advance 1 s)) := by
  have hl' : lookup cfgObserved.registry (s.mem.read s.pc.toNat) = some e := hl
  simp only [fetch, h, memRead_inRange _ hp, hl', ho]

theorem fetch_ready {s : State} {e : OpcodeEntry} {bs : List Byte} {i : Instr} {rest : List Byte}
    (h : s.rs = .running) (hp : inRange cfgObserved s.pc = true)
    (hl : lookup regCanon (s.mem.read s.pc.toNat) = some e)
    (ho : operandBytes cfgObserved s.mem e.mode (s.pc + 1) = .ok bs)
    (hd : decode (s.mem.read s.pc.toNat :: bs) = .ok (i, rest)) :
    fetch s = .ready i (advance 1 s) := by
  have hl' : lookup cfgObserved.registry (s.mem.read s.pc.toNat) = some e := hl
  simp only [fetch, h, memRead_inRange _ hp, hl', ho, hd]

theorem step_idle {s : State} (h : s.rs ≠ .running) : step s = .next s := by
  simp only [step, fetch_idle h]

theorem step_stopped {s t : State} (h : fetch s = .stopped t) : step s = .next t := by
  simp only [step, h]

theorem step_ready {s t : State} {i : Instr} (h : fetch s = .ready i t) : step s = exec i t := by
  simp only [step, h]

/-- Every meaning answers a next state. -/
theorem exec_answers (i : Instr) (s : State) : ∃ t, exec i s = .next t := by
  cases i <;> exact ⟨_, rfl⟩

end Sys2Proof.Machine
end

