-- ==== Sys2Proof/Machine/Assembler.lean ====
section
/-! DEFINITION. The assembler form of an instruction (30_encoding.md R61; the column "assembler" of
spec/opcode_table.json). It is presentation: the bytes are normative, and the machine reads none of it (log 20). -/

namespace Sys2Proof.Machine

/-- A hexadecimal digit, capital. -/
def hexDigit (n : Nat) : Char := if n < 10 then Char.ofNat (48 + n) else Char.ofNat (55 + n)

/-- `nn`: a byte as two digits. -/
def hexByte (b : Byte) : String := String.ofList [hexDigit (b.toNat / 16), hexDigit (b.toNat % 16)]

/-- `nnnn`: a word as four digits, the high byte first. -/
def hexWord (w : Word) : String := hexByte (hiByte w) ++ hexByte (loByte w)

/-- The assembler form (R61). -/
def assembler : Instr → String
  | .brk => "BRK"
  | .staIndX d8 => "STA ($" ++ hexByte d8 ++ ",X)"
  | .staZp d8 => "STA $" ++ hexByte d8
  | .staAbs a16 => "STA $" ++ hexWord a16
  | .staIndY d8 => "STA ($" ++ hexByte d8 ++ "),Y"
  | .staZpX d8 => "STA $" ++ hexByte d8 ++ ",X"
  | .staAbsY a16 => "STA $" ++ hexWord a16 ++ ",Y"
  | .staAbsX a16 => "STA $" ++ hexWord a16 ++ ",X"
  | .ldaIndX d8 => "LDA ($" ++ hexByte d8 ++ ",X)"
  | .ldaZp d8 => "LDA $" ++ hexByte d8
  | .tay => "TAY"
  | .ldaImm d8 => "LDA #$" ++ hexByte d8
  | .tax => "TAX"
  | .ldaAbs a16 => "LDA $" ++ hexWord a16
  | .ldaIndY d8 => "LDA ($" ++ hexByte d8 ++ "),Y"
  | .ldaZpX d8 => "LDA $" ++ hexByte d8 ++ ",X"
  | .ldaAbsY a16 => "LDA $" ++ hexWord a16 ++ ",Y"
  | .ldaAbsX a16 => "LDA $" ++ hexWord a16 ++ ",X"
  | .inx => "INX"

end Sys2Proof.Machine
end

