-- ==== Sys2Proof/Tests/Slice0.lean ====
section
/-! SUPPORT. Tests on fixed values, each expected result from a table of spec/95_test_vectors.md (its row is named)
or worked out by hand from the rule named; the smoke test of well-formedness; and for every obligation with
hypotheses a witness that meets them. -/

namespace Sys2Proof.Tests

open Sys2Proof.Machine

/-! ### Small states -/

/-- Single bytes put into an empty memory. -/
def bytesAt : List (Nat × Byte) → Memory
  | [] => []
  | (a, v) :: r => (bytesAt r).write a v

/-- A Running machine with the code at PC, the other registers 0. -/
def at_ (pc : Word) (code : List Byte) (data : List (Nat × Byte)) : State :=
  { State.reset with pc := pc, mem := (bytesAt data).writeBytes pc.toNat code }

/-- A step vector of the spec: the code at 0x8000. -/
def vec (code : List Byte) (data : List (Nat × Byte)) : State := at_ 0x8000 code data

/-- The state a step answers, under CFG_OBSERVED. -/
def after (s : State) : Option State :=
  match step s with
  | .next t => some t
  | .fault _ | .refused _ => none

/-- The registers A, X, Y, P and PC after a step. -/
def regs (s : State) : Option (Byte × Byte × Byte × Byte × Word) :=
  (after s).map fun t => (t.a, t.x, t.y, t.p, t.pc)

/-- PC, the run state and the bytes at the given addresses after a step. -/
def bytes (s : State) (as : List Nat) : Option (Word × RunState × List Byte) :=
  (after s).map fun t => (t.pc, t.rs, as.map t.mem.read)

/-- The registry of section 2.8 of the vectors: REG_CANON and six more entries. -/
def cfgMixed : Config :=
  { cfgObserved with registry := regCanon ++
      [(0x02, ⟨.lda, .one, 2, .noneAddressing⟩), (0x03, ⟨.sta, .two, 3, .noneAddressing⟩),
       (0x04, ⟨.inx, .three, 2, .noneAddressing⟩), (0x05, ⟨.lda, .three, 3, .zeroPage⟩),
       (0xB6, ⟨.lda, .two, 4, .zeroPageY⟩), (0x06, ⟨.lda, .one, 2, .immediate⟩)] }

/-! ### Well-formedness (R55, R56): each check refuses an ill-formed term -/

theorem test_wf_lda_needs_an_operand : OpcodeEntry.wf ⟨.lda, .one, 2, .noneAddressing⟩ = false := by decide
theorem test_wf_sta_needs_an_operand : OpcodeEntry.wf ⟨.sta, .two, 3, .noneAddressing⟩ = false := by decide
theorem test_wf_inx_takes_no_operand : OpcodeEntry.wf ⟨.inx, .two, 2, .zeroPage⟩ = false := by decide
theorem test_wf_length_follows_mode :
    OpcodeEntry.wf ⟨.inx, .three, 2, .noneAddressing⟩ = false ∧ OpcodeEntry.wf ⟨.lda, .three, 3, .zeroPage⟩ = false ∧
    OpcodeEntry.wf ⟨.lda, .one, 2, .immediate⟩ = false ∧ OpcodeEntry.wf ⟨.lda, .two, 4, .zeroPageY⟩ = true := by decide
theorem test_wf_registry : Registry.wf cfgMixed.registry = false ∧ Registry.wf regCanon = true := by decide
theorem test_wf_unique_keys :
    Registry.uniqueKeys [(0x00, ⟨.brk, .one, 7, .noneAddressing⟩), (0x00, ⟨.inx, .one, 2, .noneAddressing⟩)] = false := by
  decide
theorem test_wf_instr_needs_an_entry :
    Instr.wf [] .brk = false ∧ Instr.wf regCanonStores (.ldaZp 0x10) = false ∧ Instr.wf regCanon (.ldaZp 0x10) = true := by
  decide

/-! ### Decoding: words written out from the "encoding" column of spec/opcode_table.json -/

theorem test_decode_lda :
    decode [0b10100001, 0b00100000] = .ok (.ldaIndX 0x20, []) ∧ decode [0b10100101, 0b00010000] = .ok (.ldaZp 0x10, []) ∧
    decode [0b10101001, 0b00000101] = .ok (.ldaImm 0x05, []) ∧
    decode [0b10101101, 0b00110100, 0b00010010] = .ok (.ldaAbs 0x1234, []) ∧
    decode [0b10110001, 0b10000110] = .ok (.ldaIndY 0x86, []) ∧ decode [0b10110101, 0b10000000] = .ok (.ldaZpX 0x80, []) ∧
    decode [0b10111001, 0b00000000, 0b00110000] = .ok (.ldaAbsY 0x3000, []) ∧
    decode [0b10111101, 0b11110000, 0b11111111] = .ok (.ldaAbsX 0xFFF0, []) := by decide
theorem test_decode_sta :
    decode [0b10000001, 0b00100000] = .ok (.staIndX 0x20, []) ∧ decode [0b10000101, 0b00010110] = .ok (.staZp 0x16, []) ∧
    decode [0b10001101, 0b00000011, 0b10000000] = .ok (.staAbs 0x8003, []) ∧
    decode [0b10010001, 0b01000000] = .ok (.staIndY 0x40, []) ∧ decode [0b10010101, 0b11110000] = .ok (.staZpX 0xF0, []) ∧
    decode [0b10011001, 0b11110000, 0b11111111] = .ok (.staAbsY 0xFFF0, []) ∧
    decode [0b10011101, 0b11111111, 0b00000010] = .ok (.staAbsX 0x02FF, []) := by decide
theorem test_decode_without_operand :
    decode [0b00000000, 0xAA] = .ok (.brk, [0xAA]) ∧ decode [0b10101000] = .ok (.tay, []) ∧
    decode [0b10101010] = .ok (.tax, []) ∧ decode [0b11101000] = .ok (.inx, []) := by decide
theorem test_decode_rejects :
    decode [] = .error .noByte ∧ decode [0xEA] = .error (.unimplementedOpcode 0xEA) ∧
    decode [0xA2, 0x05] = .error (.unimplementedOpcode 0xA2) ∧ decode [0xA9] = .error (.missingOperand 0xA9) ∧
    decode [0x8D, 0x00] = .error (.missingOperand 0x8D) := by decide
theorem test_table_word :
    decodeTableWord 24 0x1234AD = some (.ldaAbs 0x1234) ∧ decodeTableWord 8 0x34A5 = some (.ldaZp 0x00) ∧
    decodeTableWord 8 0xEA = none := by decide

theorem test_assembler : assembler (.ldaIndX 0x2A) = "LDA ($2A,X)" ∧ assembler (.staAbsY 0x80F0) = "STA $80F0,Y" ∧
    assembler (.ldaImm 0x05) = "LDA #$05" := by decide

/-! ### SetZN, memory and the resolver alone (sections 2.1 to 2.3) -/

theorem test_setZN :
    znStatus 0x00 0x00 = 0x02 ∧ znStatus 0x00 0x7F = 0x00 ∧ znStatus 0x00 0x80 = 0x80 ∧ znStatus 0x02 0x80 = 0x80 ∧
    znStatus 0x80 0x00 = 0x02 ∧ znStatus 0x7D 0x05 = 0x7D ∧ znStatus 0x7D 0x80 = 0xFD ∧ znStatus 0xFF 0x00 = 0x7F := by
  decide
theorem test_word_access :
    memWrite16 cfgObserved [] 0x00FF 0x1234 = .ok [(0x00FF, 0x34), (0x0100, 0x12)] ∧
    memRead16 cfgObserved [(0x10, 0xEF), (0x11, 0xBE)] 0x10 = .ok 0xBEEF ∧
    memWrite16 cfgObserved [] 0xFFFE 0x1234 = .error (.memoryOutOfRange 0xFFFF, [(0xFFFE, 0x34)]) ∧
    memRead16 cfgFullMemory [(0, 0x12), (0xFFFF, 0x34)] 0xFFFF = .ok 0x1234 := by decide
theorem test_write_same_as_unlisted : Memory.write [(1, 5), (2, 6)] 1 0 = [(2, 6)] := by decide
theorem test_resolver_zero_page_y :
    resolve cfgObserved [(0x8001, 0xF0)] .zeroPageY 0x8001 0x01 0x20 = .ok 0x0010 := by decide
theorem test_resolver_no_mode :
    resolve cfgObserved [] .noneAddressing 0xFFFF 0 0 = .error .unsupportedAddressingMode := by decide

/-! ### One step of each instruction (sections 2.4 to 2.7; the row's id is in the name) -/

theorem test_L2 : regs { vec [0xA9, 0x00] [] with a := 0x33, p := 0x80 } = some (0x00, 0, 0, 0x02, 0x8002) := by decide
theorem test_L3 : regs { vec [0xA9, 0x80] [] with p := 0x02 } = some (0x80, 0, 0, 0x80, 0x8002) := by decide
theorem test_L5 : regs (vec [0xA5, 0x10] [(0x10, 0x55)]) = some (0x55, 0, 0, 0, 0x8002) := by decide
theorem test_L6 : regs { vec [0xA5, 0xFF] [] with a := 0x11 } = some (0x00, 0, 0, 0x02, 0x8002) := by decide
theorem test_L8 : regs { vec [0xB5, 0xFF] [(0x01, 0x42), (0x101, 0xEE)] with x := 2 } = some (0x42, 2, 0, 0, 0x8002) := by
  decide
theorem test_L9 : regs { vec [0xB5, 0x80] [(0, 0x07), (0x100, 0xEE)] with x := 0x80 } = some (0x07, 0x80, 0, 0, 0x8002) := by
  decide
theorem test_L10 : regs (vec [0xAD, 0x34, 0x12] [(0x1234, 0xC3), (0x3412, 0x11)]) = some (0xC3, 0, 0, 0x80, 0x8003) := by
  decide
theorem test_L11 : regs (vec [0xAD, 0x00, 0x80] []) = some (0xAD, 0, 0, 0x80, 0x8003) := by decide
theorem test_L13 : regs { vec [0xBD, 0xFF, 0x12] [(0x1300, 1), (0x1200, 0xEE)] with x := 1 } = some (1, 1, 0, 0, 0x8003) := by
  decide
theorem test_L14 : regs { vec [0xBD, 0xFF, 0xFF] [(0, 0x5A)] with x := 1 } = some (0x5A, 1, 0, 0, 0x8003) := by decide
theorem test_L15 : regs { vec [0xB9, 0x00, 0x30] [(0x30FF, 0x88), (0x3001, 0xEE)] with x := 1, y := 0xFF } =
    some (0x88, 1, 0xFF, 0x80, 0x8003) := by decide
theorem test_L17 :
    regs { vec [0xA1, 0xFE] [(0xFF, 0x34), (0, 0x12), (0x100, 0xEE), (0x1234, 0x5C), (0xEE34, 0x11)] with x := 1 } =
      some (0x5C, 1, 0, 0, 0x8002) := by decide
theorem test_L18 : regs { vec [0xA1, 0xFF] [(2, 0x03), (0x300, 0x80)] with x := 2 } = some (0x80, 2, 0, 0x80, 0x8002) := by
  decide
theorem test_L19 : regs { vec [0xB1, 0x86] [(0x86, 0x28), (0x87, 0x40), (0x4038, 0x3C)] with y := 0x10 } =
    some (0x3C, 0, 0x10, 0, 0x8002) := by decide
theorem test_L20 :
    regs { vec [0xB1, 0xFF] [(0xFF, 0xFF), (0, 0x20), (0x100, 0xEE), (0xEF00, 0x11)] with a := 0x77, x := 0x55, y := 1 } =
      some (0x00, 0x55, 1, 0x02, 0x8002) := by decide

theorem test_S1 : bytes { vec [0x85, 0x16] [] with a := 0xFF, p := 0x80 } [0x16] = some (0x8002, .running, [0xFF]) := by
  decide
theorem test_S2 : regs { vec [0x85, 0x00] [(0, 0x99)] with p := 0x80 } = some (0, 0, 0, 0x80, 0x8002) := by decide
theorem test_S3 : bytes { vec [0x95, 0xF0] [] with a := 0x3C, x := 0x20 } [0x10, 0x110] =
    some (0x8002, .running, [0x3C, 0x00]) := by decide
theorem test_S4 : bytes { vec [0x8D, 0x00, 0x02] [] with a := 0x80 } [0x200, 0x02] =
    some (0x8003, .running, [0x80, 0x00]) := by decide
theorem test_S11 : bytes { vec [0x8D, 0x03, 0x80, 0x00] [] with a := 0xE8 } [0x8003] = some (0x8003, .running, [0xE8]) := by
  decide
theorem test_S5 : bytes { vec [0x9D, 0xFF, 0x02] [] with a := 0xA0, x := 1 } [0x300, 0x200] =
    some (0x8003, .running, [0xA0, 0x00]) := by decide
theorem test_S6 : bytes { vec [0x99, 0xF0, 0xFF] [] with a := 0x12, x := 1, y := 0x20 } [0x10] =
    some (0x8003, .running, [0x12]) := by decide
theorem test_S7 : bytes { vec [0x81, 0x20] [(0x25, 0x03)] with a := 0x6B, x := 4 } [0x300] =
    some (0x8002, .running, [0x6B]) := by decide
theorem test_S8 : bytes { vec [0x81, 0x00] [(0xFF, 0x10), (0, 0x04), (0x100, 0xEE)] with a := 0x6B, x := 0xFF }
    [0x410, 0xEE10] = some (0x8002, .running, [0x6B, 0x00]) := by decide
theorem test_S9 : bytes { vec [0x91, 0x40] [(0x40, 0xFE), (0x41, 0x02)] with a := 0x9E, y := 5 } [0x303] =
    some (0x8002, .running, [0x9E]) := by decide
theorem test_S10 : bytes { vec [0x91, 0xFF] [(0, 0x05), (0x100, 0xEE)] with a := 1 } [0x500, 0xEE00] =
    some (0x8002, .running, [0x01, 0x00]) := by decide

theorem test_X1 : regs { vec [0xAA] [] with a := 5, x := 0x77, p := 0x82 } = some (5, 5, 0, 0, 0x8001) := by decide
theorem test_X3 : regs { vec [0xAA] [] with a := 0x80, p := 0x02 } = some (0x80, 0x80, 0, 0x80, 0x8001) := by decide
theorem test_Y1 : regs { vec [0xA8] [] with a := 0x80, y := 0x11 } = some (0x80, 0, 0x80, 0x02, 0x8001) := by decide
theorem test_Y3 : regs { vec [0xA8] [] with a := 0x42, x := 0x90 } = some (0x42, 0x90, 0x42, 0x80, 0x8001) := by decide
theorem test_I3 : regs { vec [0xE8] [] with x := 0xFF, p := 0x80 } = some (0, 0, 0, 0x02, 0x8001) := by decide
theorem test_I5 : regs { vec [0xE8] [] with x := 0x41, p := 0x7D } = some (0, 0x42, 0, 0x7D, 0x8001) := by decide
theorem test_B1 : regs { vec [0x00] [] with a := 0x12, x := 0x34, y := 0x56, p := 0x82 } =
    some (0x12, 0x34, 0x56, 0x82, 0x8001) := by decide
theorem test_B2 : bytes (at_ 0xFFFE [0x00] []) [] = some (0xFFFF, .halted, []) := by decide

/-! ### Faults (section 2.8) -/

theorem test_F2 : bytes (vec [0xEA] []) [] = some (0x8000, .faulted (.unimplementedOpcode 0xEA), []) := by decide
theorem test_F5 : bytes (at_ 0xFFFF [] []) [] = some (0xFFFF, .faulted (.memoryOutOfRange 0xFFFF), []) := by decide
theorem test_F6 : bytes (at_ 0xFFFE [0xA9] []) [] = some (0xFFFF, .faulted (.memoryOutOfRange 0xFFFF), []) := by decide
theorem test_F7 : bytes (at_ 0xFFFD [0xAD, 0x10] []) [] = some (0xFFFE, .faulted (.memoryOutOfRange 0xFFFF), []) := by
  decide
theorem test_F8 : regs { vec [0xAD, 0xFF, 0xFF] [] with a := 0x11, p := 0x02 } = some (0x11, 0, 0, 0x02, 0x8001) := by
  decide
theorem test_F9 : bytes { vec [0x8D, 0xFF, 0xFF] [] with a := 0x11 } [0xFFFF] =
    some (0x8001, .faulted (.memoryOutOfRange 0xFFFF), [0x00]) := by decide
theorem test_F11 : bytes { vec [0xB1, 0x10] [(0x10, 0xFE), (0x11, 0xFF)] with y := 1 } [] =
    some (0x8001, .faulted (.memoryOutOfRange 0xFFFF), []) := by decide
theorem test_fault_codes : RunState.faultCode (.faulted (.unimplementedOpcode 0)) = 1 ∧
    RunState.faultCode (.faulted .unsupportedAddressingMode) = 2 ∧
    RunState.faultCode (.faulted (.memoryOutOfRange 0xFFFF)) = 3 ∧ RunState.faultCode .halted = 0 := by decide

/-! ### Other configurations (rows marked full memory and TAY from Y; the registry of section 2.8) -/

theorem test_Y1_from_y : (stepWith cfgTayFromY { vec [0xA8] [] with a := 0x80, y := 0x11 }).p = 0x80 := by decide
theorem test_F5_full : let t := stepWith cfgFullMemory { at_ 0xFFFF [0xE8] [] with x := 1 }
    (t.x, t.pc, t.rs) = (0x02, 0x0000, .running) := by decide
theorem test_F6_full : let t := stepWith cfgFullMemory (at_ 0xFFFF [0xA9] [(0, 0x07)])
    (t.a, t.pc, t.rs) = (0x07, 0x0001, .running) := by decide
theorem test_N2 : let t := stepWith cfgMixed { vec [0x03, 0x10] [] with a := 0x11 }
    (t.pc, t.rs, t.mem.read 0x10) = (0x8001, .faulted .unsupportedAddressingMode, 0x00) := by decide
theorem test_N3 : let t := stepWith cfgMixed { vec [0x04, 0xFF, 0xFF] [] with x := 1 }
    (t.x, t.pc) = (0x02, 0x8001) := by decide
theorem test_N4 : let t := stepWith cfgMixed (vec [0x05, 0x10, 0xFF] [(0x10, 0x66)]); (t.a, t.pc) = (0x66, 0x8003) := by
  decide
theorem test_N5 : let t := stepWith cfgMixed { vec [0xB6, 0xF0] [(0x10, 0x09), (0xF1, 0xEE)] with x := 1, y := 0x20 }
    (t.a, t.pc) = (0x09, 0x8002) := by decide
theorem test_N6 : let t := stepWith cfgMixed (vec [0x06, 0x44] []); (t.a, t.pc) = (0x44, 0x8001) := by decide

/-! ### The accesses of a step (column "acc:") -/

theorem test_acc_L17 : stepAccesses cfgObserved { vec [0xA1, 0xFE] [(0xFF, 0x34), (0, 0x12)] with x := 1 } =
    [.read 0x8000, .read 0x8001, .read 0x00FF, .read 0x0000, .read 0x1234] := by decide
theorem test_acc_S11 : stepAccesses cfgObserved (vec [0x8D, 0x03, 0x80] []) =
    [.read 0x8000, .read 0x8001, .read 0x8002, .write 0x8003] := by decide
theorem test_acc_F7 : stepAccesses cfgObserved (at_ 0xFFFD [0xAD, 0x10] []) = [.read 0xFFFD, .read 0xFFFE] := by decide
theorem test_acc_N2 : stepAccesses cfgMixed (vec [0x03, 0x10] []) = [.read 0x8000] := by decide

/-! ### Host commands (section 2.9) -/

theorem test_H1 : hostRun cfgObserved 5 State.powerOn = (State.powerOn, .notRunning) := by decide
theorem test_H2 : let r := hostStep cfgObserved (hostReset cfgObserved State.powerOn)
    (r.1.pc, r.1.rs, r.2) = (0x0001, .halted, .halted) := by decide
theorem test_H3_lengths : loadFits cfgObserved 0x7FFF = true ∧ loadFits cfgObserved 0x8000 = false ∧
    loadFits cfgFullMemory 0x8000 = true ∧ loadFits cfgFullMemory 0x8001 = false := by decide
theorem test_H5_reset : (hostReset cfgObserved { State.powerOn with mem := bytesAt [(0xFFFC, 0x00), (0xFFFD, 0x02)] }).pc =
    0x0200 := by decide
theorem test_H6_reset : let t := hostReset cfgObserved { State.powerOn with
      a := 9, x := 9, y := 9, rs := .faulted (.unimplementedOpcode 0x02), mem := [(0xFFFD, 0x80)] }
    (t.a, t.x, t.y, t.pc, t.rs) = (0x00, 0x00, 0x09, 0x8000, .running) := by decide
theorem test_H7 : (hostRead cfgObserved 0xFFFF State.powerOn).2 = .outOfRange ∧
    (hostWrite cfgObserved 0xFFFF 1 State.powerOn).2 = .outOfRange ∧
    (hostWrite cfgFullMemory 0xFFFF 1 State.powerOn).2 = .done := by decide
theorem test_H10 : (hostLoad cfgObserved [] State.powerOn).1.mem = [(0xFFFD, 0x80)] := by decide
theorem test_H11 : (hostLoad cfgObserved [0x09] (hostLoad cfgObserved [1, 2, 3, 4] State.powerOn).1).1.mem =
    [(0x8000, 9), (0x8001, 2), (0x8002, 3), (0x8003, 4), (0xFFFD, 0x80)] := by decide

/-! ### A placed instruction (log 6) -/

theorem test_placed_runs : regs (State.reset.withFetchWord 16 0x05A9) = some (0x05, 0, 0, 0, 0x0002) := by decide
theorem test_placed_at_the_top : (({ State.reset with pc := 0xFFFD } : State).withFetchWord 24 0x1234AD).pc = 0x8000 := by
  decide

/-! ### Witnesses: for every obligation with hypotheses, values that meet them, clause by clause -/

/-- A pointer to 0xFFFF at 0x10 and to 0xFFFE at 0xFF (its high byte at 0x00). -/
def pointers : State := at_ 0x8001 [] [(0x10, 0xFF), (0x11, 0xFF), (0xFF, 0xFE), (0x00, 0xFF)]

/-- The whole space filled with INX from an address on. -/
def filled : Nat → Nat → Memory
  | _, 0 => []
  | a, n + 1 => (a, 0xE8) :: filled (a + 1) n

theorem filled_read (n a b : Nat) (h : a ≤ b) (hb : b < a + n) : (filled a n).read b = 0xE8 := by
  induction n generalizing a with
  | zero => omega
  | succ n ih =>
    show (if a = b then 0xE8 else (filled (a + 1) n).read b) = 0xE8
    split
    · rfl
    · exact ih (a + 1) (by omega) (by omega)

theorem witness_ByteAccessIsRangeChecked : Memory.wf [] = true ∧ (0xFFFE : Word).toNat < cfgObserved.memSize.bytes ∧
    cfgObserved.memSize.bytes ≤ (0xFFFF : Word).toNat ∧ (0xFFFF : Word).toNat < cfgFullMemory.memSize.bytes := by decide
theorem witness_WordAccessIsLittleEndian :
    (inRange cfgObserved 0xFFFD = true ∧ inRange cfgObserved (0xFFFD + 1) = true) ∧
    (inRange cfgObserved 0xFFFE = true ∧ inRange cfgObserved (0xFFFE + 1) = false) ∧
    inRange cfgObserved 0xFFFF = false ∧ (inRange cfgFullMemory 0xFFFF = true ∧ inRange cfgFullMemory (0xFFFF + 1) = true) := by
  decide
theorem witness_CanonicalMemoriesAreEqual : ∃ m m' : Memory, m.wf = true ∧ m'.wf = true ∧ m ≠ [] ∧
    ∀ a, m.read a = m'.read a :=
  ⟨bytesAt [(1, 5), (0, 3)], bytesAt [(0, 3), (1, 5)], by decide, by decide, by decide, fun _ => rfl⟩
theorem witness_ResolverDirectModes : (0xFFFE : Word).toNat < cfgObserved.memSize.bytes ∧
    cfgObserved.memSize.bytes ≤ (0xFFFF : Word).toNat := by decide
theorem witness_ResolverAbsoluteModes :
    (inRange cfgFullMemory 0xFFFF = true ∧ inRange cfgFullMemory (0xFFFF + 1) = true) ∧
    (inRange cfgObserved 0xFFFE = true ∧ inRange cfgObserved (0xFFFE + 1) = false) ∧ inRange cfgObserved 0xFFFF = false := by
  decide
theorem witness_ResolverIndirectModes : inRange cfgObserved 0xFFFE = true ∧ inRange cfgObserved 0xFFFF = false := by decide
theorem witness_ResolverFaultsOnlyByModeOrRange : cfgFullMemory.memSize = .full ∧ Mode.absoluteX ≠ .noneAddressing := by
  decide
theorem witness_LoadAnyEntry :
    resolve cfgObserved [] .noneAddressing 0x8001 0 0 = .error .unsupportedAddressingMode ∧
    (resolve cfgObserved [] .immediate 0xFFFF 0 0 = .ok 0xFFFF ∧ inRange cfgObserved 0xFFFF = false) ∧
    (resolve cfgObserved [] .immediate 0xFFFE 0 0 = .ok 0xFFFE ∧ inRange cfgObserved 0xFFFE = true) := by decide
theorem witness_StoreAnyEntry : pointers.mem.wf = true ∧
    resolve cfgObserved [] .zeroPage 0xFFFF 0 0 = .error (.memoryOutOfRange 0xFFFF) ∧
    (resolve cfgObserved pointers.mem .absolute 0x0010 0 0 = .ok 0xFFFF ∧ inRange cfgObserved 0xFFFF = false) ∧
    (resolve cfgFullMemory pointers.mem .absolute 0x0010 0 0 = .ok 0xFFFF ∧ inRange cfgFullMemory 0xFFFF = true) := by decide
theorem witness_entries_of_each_kind : (lookup regCanon 0xAA).map (·.kind) = some .tax ∧
    (lookup regCanon 0xA8).map (·.kind) = some .tay ∧ (lookup regCanon 0xE8).map (·.kind) = some .inx ∧
    (lookup regCanon 0x00).map (·.kind) = some .brk ∧ cfgObserved.tayFlagSource = .fromX ∧
    cfgTayFromY.tayFlagSource = .fromY := by decide
theorem witness_HaltChangesOnlyRunState :
    FetchesEntry cfgObserved (at_ 0xFFFE [0x00] []) ⟨.brk, .one, 7, .noneAddressing⟩ := ⟨rfl, rfl, rfl⟩
theorem witness_LoadAbsoluteForms : (0xFFFE : Word).toNat ≠ 0xFFFF ∧ (0xFFFF : Word).toNat = 0xFFFF ∧
    ((0xFFF0 : Word).toNat + (0x0F : Byte).toNat) % 0x10000 = 0xFFFF ∧
    ((0xFFFF : Word).toNat + (0x01 : Byte).toNat) % 0x10000 ≠ 0xFFFF := by decide
theorem witness_LoadIndirectForms :
    eaIndirectX cfgObserved pointers.mem 0xFE 1 = .ok 0xFFFE ∧ eaIndirectX cfgObserved pointers.mem 0x10 0 = .ok 0xFFFF ∧
    eaIndirectY cfgObserved pointers.mem 0xFF 1 = .ok 0xFFFF ∧ eaIndirectY cfgObserved pointers.mem 0x10 1 = .ok 0x0000 := by
  decide
theorem witness_StoreForms : pointers.mem.wf = true ∧ (0xFFFE : Word).toNat ≠ 0xFFFF ∧
    ((0xFF : Byte).toNat + (0x01 : Byte).toNat) % 256 = 0 := by decide
theorem witness_LoadFrame : (Instr.ldaAbs 0xFFFF).kind = .lda ∧
    exec (.ldaAbs 0xFFFF) pointers = .next (raise (.memoryOutOfRange 0xFFFF) pointers) ∧
    ∃ t, exec (.ldaAbs 0xFFFE) pointers = .next t ∧ t.rs = .running := ⟨rfl, rfl, _, rfl, rfl⟩
theorem witness_StoreFrame : (Instr.staIndY 0x10).kind = .sta ∧ storeAddress (.staIndY 0x10) pointers = some 0xFFFF ∧
    exec (.staIndY 0x10) pointers = .next (raise (.memoryOutOfRange 0xFFFF) pointers) ∧
    storeAddress (.staIndX 0xFF) pointers = some 0xFFFE ∧
    ∃ t, exec (.staIndX 0xFF) pointers = .next t ∧ t.rs = .running := ⟨rfl, rfl, rfl, rfl, _, rfl, rfl⟩
theorem witness_RegisterAndHaltFrame : (∃ t, exec .tax pointers = .next t) ∧ (∃ t, exec .tay pointers = .next t) ∧
    (∃ t, exec .inx pointers = .next t) ∧ ∃ t, exec .brk pointers = .next t :=
  ⟨⟨_, rfl⟩, ⟨_, rfl⟩, ⟨_, rfl⟩, ⟨_, rfl⟩⟩
theorem witness_StepRunsDecodedInstruction : let s := at_ 0xFFFC [0x8D, 0x34, 0x12] []
    s.rs = .running ∧ s.pc.toNat + (encode (.staAbs 0x1234)).length ≤ 0xFFFF ∧
    decode [s.mem.read s.pc.toNat, s.mem.read (s.pc.toNat + 1), s.mem.read (s.pc.toNat + 2)] = .ok (.staAbs 0x1234, []) := by
  decide
theorem witness_NoStepOutsideRunning : State.powerOn.rs ≠ .running ∧ (brk State.reset).rs ≠ .running ∧
    (raise .unsupportedAddressingMode State.reset).rs ≠ .running := by decide
theorem witness_UnlistedOpcodeFaults : let s := at_ 0xFFFE [0xEA] []
    s.rs = .running ∧ inRange cfgObserved s.pc = true ∧ s.pc.toNat < 0xFFFF ∧
    lookup cfgObserved.registry (s.mem.read s.pc.toNat) = none := by decide
theorem witness_FetchBeyondMemoryFaults : let s := at_ 0xFFFF [] []
    s.rs = .running ∧ inRange cfgObserved s.pc = false := by decide
theorem witness_UnsupportedModeNeedsIllFormedRegistry :
    FetchesEntry cfgMixed (vec [0x02] []) ⟨.lda, .one, 2, .noneAddressing⟩ ∧
    FetchesEntry cfgMixed (vec [0x03] []) ⟨.sta, .two, 3, .noneAddressing⟩ ∧
    (stepWith cfgMixed (vec [0x03] [])).rs = .faulted .unsupportedAddressingMode ∧
    Registry.wf cfgObserved.registry = true ∧ State.reset.rs ≠ .faulted .unsupportedAddressingMode :=
  ⟨⟨rfl, rfl, rfl⟩, ⟨rfl, rfl, rfl⟩, rfl, by decide, by decide⟩
theorem witness_OutOfRangeOnlyAtTopOfObservedMemory : let s := vec [0x8D, 0xFF, 0xFF] []
    s.rs = .running ∧ (stepWith cfgObserved s).rs = .faulted (.memoryOutOfRange 0xFFFF) := by decide
theorem witness_FaultsArePrecise :
    (stepWith cfgObserved (vec [0xEA] [])).rs = .faulted (.unimplementedOpcode 0xEA) ∧
    (stepWith cfgMixed (vec [0x02] [])).rs = .faulted .unsupportedAddressingMode := by decide
theorem witness_ProgramCounterAfterStep :
    (FetchesEntry cfgObserved (vec [0xAD, 0xFF, 0xFF] []) ⟨.lda, .three, 4, .absolute⟩ ∧
      (stepWith cfgObserved (vec [0xAD, 0xFF, 0xFF] [])).rs = .faulted (.memoryOutOfRange 0xFFFF)) ∧
    (FetchesEntry cfgMixed (vec [0x05, 0x10] []) ⟨.lda, .three, 3, .zeroPage⟩ ∧
      (stepWith cfgMixed (vec [0x05, 0x10] [])).rs = .running) ∧
    (FetchesEntry cfgMixed (vec [0x04] []) ⟨.inx, .three, 2, .noneAddressing⟩ ∧
      (stepWith cfgMixed (vec [0x04] [])).rs = .running) ∧
    FetchesEntry cfgObserved (at_ 0xFFFE [0xE8] []) ⟨.inx, .one, 2, .noneAddressing⟩ ∧
    OpcodeEntry.wf ⟨.inx, .one, 2, .noneAddressing⟩ = true :=
  ⟨⟨⟨rfl, rfl, rfl⟩, rfl⟩, ⟨⟨rfl, rfl, rfl⟩, rfl⟩, ⟨⟨rfl, rfl, rfl⟩, rfl⟩, ⟨rfl, rfl, rfl⟩, rfl⟩
theorem witness_ForwardProgressWithoutWrap : cfgObserved.memSize = .observed ∧ Registry.wf cfgObserved.registry = true ∧
    (at_ 0xFFFE [0xE8] []).rs = .running ∧ (stepWith cfgObserved (at_ 0xFFFE [0xE8] [])).rs = .running := by decide
theorem witness_OnlyHaltInstructionHalts : (stepWith cfgObserved (vec [0x00] [])).rs = .halted ∧
    (stepWith cfgObserved (vec [0xE8] [])).rs ≠ .halted := by decide
theorem witness_OnlyNamedInstructionsWrite :
    (stepWith cfgObserved (vec [0xA9, 0x05] [])).a ≠ 0 ∧ (stepWith cfgObserved (vec [0xE8] [])).x ≠ 0 ∧
    (stepWith cfgObserved { vec [0xA8] [] with a := 1 }).y ≠ 0 ∧ (stepWith cfgObserved (vec [0xAA] [])).p ≠ 0 ∧
    (stepWith cfgObserved { vec [0x85, 0x00] [] with a := 1 }).mem ≠ (vec [0x85, 0x00] []).mem := by decide
theorem witness_FlagsComeFromTheResult :
    FetchesEntry cfgObserved (vec [0xA9, 0x80] []) ⟨.lda, .two, 2, .immediate⟩ ∧
    (stepWith cfgObserved (vec [0xA9, 0x80] [])).rs = .running ∧
    FetchesEntry cfgTayFromY (vec [0xA8] []) ⟨.tay, .one, 2, .noneAddressing⟩ ∧
    (stepWith cfgObserved (vec [0x8D, 0xFF, 0xFF] [])).rs = .faulted (.memoryOutOfRange 0xFFFF) :=
  ⟨⟨rfl, rfl, rfl⟩, rfl, ⟨rfl, rfl, rfl⟩, rfl⟩
theorem witness_StoredByteIsFetchedNext : let s := vec [0x8D, 0xFE, 0xFF] []
    s.mem.wf = true ∧ FetchesEntry cfgObserved s ⟨.sta, .three, 4, .absolute⟩ ∧
    resolve cfgObserved s.mem .absolute (s.pc + 1) s.x s.y = .ok 0xFFFE ∧ inRange cfgObserved 0xFFFE = true :=
  ⟨rfl, ⟨rfl, rfl, rfl⟩, rfl, rfl⟩
theorem witness_AccessesOfEachKind :
    FetchesEntry cfgObserved (at_ 0xFFFE [0xAA] []) ⟨.tax, .one, 2, .noneAddressing⟩ ∧
    FetchesEntry cfgObserved (vec [0xA5, 0x00] []) ⟨.lda, .two, 3, .zeroPage⟩ ∧
    FetchesEntry cfgObserved (vec [0x85, 0x00] []) ⟨.sta, .two, 3, .zeroPage⟩ ∧
    Access.write 0x0000 ∈ stepAccesses cfgObserved (vec [0x85, 0x00] []) :=
  ⟨⟨rfl, rfl, rfl⟩, ⟨rfl, rfl, rfl⟩, ⟨rfl, rfl, rfl⟩, by decide⟩
theorem witness_StepDependsOnlyOnItsReads : let s := vec [0x85, 0x16] []
    let m : Memory := bytesAt [(0x8000, 0x85), (0x8001, 0x16), (0x16, 0x99), (0x0300, 0x01)]
    s.mem.wf = true ∧ m.wf = true ∧ m ≠ s.mem ∧ stepAccesses cfgObserved s = [.read 0x8000, .read 0x8001, .write 0x0016] ∧
    m.read 0x8000 = s.mem.read 0x8000 ∧ m.read 0x8001 = s.mem.read 0x8001 := by decide
theorem witness_RunReplyTellsRunState : hostRun cfgObserved 0 State.reset = (State.reset, .budgetExhausted) ∧
    State.reset.rs = .running ∧ State.powerOn.rs ≠ .running := by decide
theorem witness_EveryRunEndsWithObservedMemory : cfgObserved.memSize = .observed ∧
    Registry.wf cfgObserved.registry = true ∧ State.reset.rs = .running ∧ State.reset.pc = 0 ∧
    (hostRun cfgObserved 1 (at_ 0xFFFF [] [])).2 = .faulted (.memoryOutOfRange 0xFFFF) := by decide
theorem witness_FullMemoryRunMayNeverEnd : ∃ s : State, s.rs = .running ∧ ∀ a, a < 0x10000 → s.mem.read a = 0xE8 :=
  ⟨{ State.reset with mem := filled 0 0x10000 }, rfl, fun a h => filled_read 0x10000 0 a (Nat.zero_le a) (by omega)⟩
theorem witness_StepKeepsInvariant : State.reset.Inv cfgObserved ∧ step State.reset = .next (brk (advance 1 State.reset)) :=
  ⟨⟨rfl, rfl, rfl, rfl⟩, rfl⟩
theorem witness_ReachableStatesMeetInvariant : Reachable cfgObserved State.reset :=
  .command .reset _ _ .done .powerOn ⟨rfl, rfl⟩
theorem witness_LoadPlacesProgramAndVector : State.powerOn.mem.wf = true ∧
    0x8000 + (List.replicate 0x7FFF (0xE8 : Byte)).length ≤ cfgObserved.memSize.bytes ∧
    cfgObserved.memSize.bytes < 0x8000 + (List.replicate 0x8000 (0xE8 : Byte)).length := by
  rw [List.length_replicate, List.length_replicate]; decide
theorem witness_HostReadAndWrite : State.reset.mem.wf = true ∧ inRange cfgObserved 0xFFFE = true ∧
    inRange cfgObserved 0xFFFF = false := by decide
theorem witness_RunBudgetsCompose : RunEnds cfgObserved State.reset (brk (advance 1 State.reset)) .halted ∧
    RunEnds cfgObserved State.powerOn State.powerOn .notRunning :=
  ⟨⟨1, rfl, by decide⟩, ⟨0, rfl, by decide⟩⟩
/-- T3: `A9 05 00` ends with A = 5 and PC = 0x8003. -/
theorem witness_LoadAndRunStartsAtOrigin : ∃ t, LoadAndRunEnds cfgObserved [0xA9, 0x05, 0x00] State.powerOn t .halted ∧
    t.a = 0x05 ∧ t.pc = 0x8003 := ⟨_, ⟨2, rfl, by decide⟩, rfl, rfl⟩
theorem witness_CommandsInEachRunState : State.powerOn.rs ≠ .running ∧
    CommandEnds cfgObserved .reset State.powerOn State.reset .done ∧
    CommandEnds cfgObserved (.run none) State.powerOn State.powerOn .notRunning ∧
    CommandEnds cfgObserved (.run (some 0)) State.reset State.reset .budgetExhausted ∧
    CommandEnds cfgObserved (.read 0xFFFF) State.reset State.reset .outOfRange ∧
    ∃ t, CommandEnds cfgObserved (.loadAndRun []) State.powerOn t .halted ∧ t.rs ≠ State.powerOn.rs :=
  ⟨by decide, ⟨rfl, rfl⟩, ⟨0, rfl, by decide⟩, rfl, rfl, _, ⟨1, rfl, by decide⟩, by decide⟩
theorem witness_DecodeInvertsEncode : Instr.wf regCanon (.ldaAbsY 0xFFFF) = true ∧ Instr.wf regCanon .brk = true := by decide
theorem witness_DecodedBytesAreTheEncoding : decode [0xBD, 0xF0, 0xFF, 0xAA] = .ok (.ldaAbsX 0xFFF0, [0xAA]) := by decide
theorem witness_DecoderRejectsUnlistedBytes : decode [0x02] = .error (.unimplementedOpcode 0x02) ∧
    decode [0x9D, 0x00] = .error (.missingOperand 0x9D) := by decide
theorem witness_PlacedInstructionRunsNext : State.reset.mem.wf = true ∧ State.reset.pc.toNat + 3 ≤ 0xFFFF ∧
    decodeTableWord 24 0xFFFF9D = some (.staAbsX 0xFFFF) := by decide

end Sys2Proof.Tests
end

