-- ==== Sys2Proof/Proofs/AddressingModes.lean ====
section
/-! PROOFS. The obligations of 40_addressing_modes.md: what an operand form answers and what it reads, said
once per form, then the direct, the absolute and the indirect modes. -/

namespace Sys2Proof.Machine

/-! ### The word access out of range -/

theorem memRead16_outOfRange {cfg : Config} {a : Word} (m : Memory) (h : inRange cfg a = false) :
    memRead16 cfg m a = .error (.memoryOutOfRange a) := by
  simp only [memRead16, memRead_outOfRange m h]

/-- The second byte is read after the first, so it is the one a fault names (R35). -/
theorem memRead16_secondOutOfRange {cfg : Config} {a : Word} (m : Memory) (h : inRange cfg a = true)
    (h' : inRange cfg (a + 1) = false) :
    memRead16 cfg m a = .error (.memoryOutOfRange (a + 1)) := by
  simp only [memRead16, memRead_inRange m h, memRead_outOfRange m h']

/-! ### The operand forms: their value, or the fault of the operand read -/

section
variable {cfg : Config} {pc1 : Word} (m : Memory)

theorem withByteOperand_inRange (k : Byte → Except Fault Word) (h : inRange cfg pc1 = true) :
    withByteOperand cfg m pc1 k = k (m.read pc1.toNat) := by
  simp only [withByteOperand, memRead_inRange m h]

theorem withByteOperand_outOfRange (k : Byte → Except Fault Word) (h : inRange cfg pc1 = false) :
    withByteOperand cfg m pc1 k = .error (.memoryOutOfRange pc1) := by
  simp only [withByteOperand, memRead_outOfRange m h]

theorem withWordOperand_inRange (k : Word → Except Fault Word) (h : inRange cfg pc1 = true)
    (h' : inRange cfg (pc1 + 1) = true) :
    withWordOperand cfg m pc1 k = k (joinBytes (m.read (pc1 + 1).toNat) (m.read pc1.toNat)) := by
  simp only [withWordOperand, memRead16_inRange m h h']

theorem withWordOperand_outOfRange (k : Word → Except Fault Word) (h : inRange cfg pc1 = false) :
    withWordOperand cfg m pc1 k = .error (.memoryOutOfRange pc1) := by
  simp only [withWordOperand, memRead16_outOfRange m h]

theorem withWordOperand_secondOutOfRange (k : Word → Except Fault Word) (h : inRange cfg pc1 = true)
    (h' : inRange cfg (pc1 + 1) = false) :
    withWordOperand cfg m pc1 k = .error (.memoryOutOfRange (pc1 + 1)) := by
  simp only [withWordOperand, memRead16_secondOutOfRange m h h']

/-- The operand word as a number, its high byte at the next address modulo 65536 (R75). -/
theorem operandWord_toNat (pc1 : Word) :
    (joinBytes (m.read (pc1 + 1).toNat) (m.read pc1.toNat)).toNat =
      (m.read ((pc1.toNat + 1) % 0x10000)).toNat * 256 + (m.read pc1.toNat).toNat := by
  rw [joinBytes_toNat, succ_toNat]

/-! ### The resolver's reads of the modes with a pointer -/

theorem resolverReads_indirectX (pc1 : Word) (x : Byte) :
    resolverReads m .indirectX pc1 x =
      [pc1.toNat, ((m.read pc1.toNat).toNat + x.toNat) % 256,
        ((m.read pc1.toNat).toNat + x.toNat + 1) % 256] := by
  simp [resolverReads, operandReads, pointerReads, Access.addr, zext16_toNat]

theorem resolverReads_indirectY (pc1 : Word) (x : Byte) :
    resolverReads m .indirectY pc1 x =
      [pc1.toNat, (m.read pc1.toNat).toNat, ((m.read pc1.toNat).toNat + 1) % 256] := by
  simp [resolverReads, operandReads, pointerReads, Access.addr, zext16_toNat]

end

/-! ### The obligations -/

/-- Settles O5: each zero-page mode is a byte operand followed by a sum in the zero page. -/
theorem resolverDirectModes : Obligations.ResolverDirectModes := by
  intro cfg m pc1 x y
  refine ⟨rfl, rfl, ?reads, fun hlt => ?values, fun hge => ?faults⟩
  case reads => rintro mode (rfl | rfl | rfl) <;> rfl
  case values =>
    have h : inRange cfg pc1 = true := (inRange_iff cfg pc1).2 hlt
    exact ⟨⟨_, withByteOperand_inRange m _ h, eaZeroPage_toNat _⟩,
      ⟨_, withByteOperand_inRange m _ h, eaZeroPageIndexed_toNat _ x⟩,
      ⟨_, withByteOperand_inRange m _ h, eaZeroPageIndexed_toNat _ y⟩⟩
  case faults =>
    have h : inRange cfg pc1 = false := by
      rw [← Bool.not_eq_true, inRange_iff]; omega
    exact ⟨withByteOperand_outOfRange m _ h, withByteOperand_outOfRange m _ h,
      withByteOperand_outOfRange m _ h⟩

/-- Settles O6: each absolute mode is a word operand, with the index added modulo 65536. -/
theorem resolverAbsoluteModes : Obligations.ResolverAbsoluteModes := by
  intro cfg m pc1 x y lo hi
  have indexed (i : Byte) :
      (eaAbsoluteIndexed (joinBytes (m.read (pc1 + 1).toNat) (m.read pc1.toNat)) i).toNat =
        (hi * 256 + lo + i.toNat) % 0x10000 := by
    rw [eaAbsoluteIndexed_toNat, operandWord_toNat]
  refine ⟨fun h h' => ?values, fun mode hmode => ⟨?reads, fun h => ?firstFault, fun h h' => ?secondFault⟩⟩
  case values =>
    exact ⟨⟨_, withWordOperand_inRange m _ h h', operandWord_toNat m pc1⟩,
      ⟨_, withWordOperand_inRange m _ h h', indexed x⟩,
      ⟨_, withWordOperand_inRange m _ h h', indexed y⟩⟩
  case reads =>
    rw [← succ_toNat]
    obtain rfl | rfl | rfl := hmode <;> rfl
  case firstFault =>
    obtain rfl | rfl | rfl := hmode <;> exact withWordOperand_outOfRange m _ h
  case secondFault =>
    obtain rfl | rfl | rfl := hmode <;> exact withWordOperand_secondOutOfRange m _ h h'

/-- Settles O7: the pointer bytes are in the zero page, which no memory size leaves out, so past the operand
read nothing faults; X moves the pointer, Y moves the word it holds. -/
theorem resolverIndirectModes : Obligations.ResolverIndirectModes := by
  intro cfg m pc1 x y d8 word
  refine ⟨resolverReads_indirectX m pc1 x, resolverReads_indirectY m pc1 x, fun h => ⟨?x, ?y⟩, fun h => ?faults⟩
  case x =>
    exact ⟨_, (withByteOperand_inRange m _ h).trans (eaIndirectX_eq cfg m _ x), pointerX_toNat m _ x⟩
  case y =>
    exact ⟨_, (withByteOperand_inRange m _ h).trans (eaIndirectY_eq cfg m _ y), pointerY_toNat m _ y⟩
  case faults =>
    exact ⟨withByteOperand_outOfRange m _ h, withByteOperand_outOfRange m _ h⟩

end Sys2Proof.Machine
end

