-- ==== Sys2Proof/Proofs/Executor.lean ====
section
/-! PROOFS. The obligations of 41_executor.md: the flags SetZN leaves, what each kind of entry does to PC and P,
what a fault of the dispatch leaves, then the step. -/

namespace Sys2Proof.Machine

/-! ### The flags of a status byte that SetZN wrote -/

section
variable {s t : State} {v : Byte}

theorem zero_of_znStatus (h : t.p = znStatus s.p v) : t.zero = decide (v = 0) := by
  rw [State.zero, h, znStatus_getLsbD, if_pos rfl]

theorem negative_of_znStatus (h : t.p = znStatus s.p v) : t.negative = v.getLsbD 7 := by
  rw [State.negative, h, znStatus_getLsbD, if_neg (by decide), if_pos rfl]

theorem sameOtherStatusBits_znStatus (p v : Byte) : SameOtherStatusBits p (znStatus p v) := by
  intro k h1 h7
  rw [znStatus_getLsbD, if_neg h1, if_neg h7]

/-- The three flag facts of R90 together. -/
theorem flags_of_znStatus (h : t.p = znStatus s.p v) :
    t.zero = decide (v = 0) ∧ t.negative = v.getLsbD 7 ∧ SameOtherStatusBits s.p t.p :=
  ⟨zero_of_znStatus h, negative_of_znStatus h, h ▸ sameOtherStatusBits_znStatus s.p v⟩

end

/-! ### What each kind does, as an equation -/

section
variable {cfg : Config} {e : OpcodeEntry} {s : State}

theorem execEntry_lda (hk : e.kind = .lda) :
    execEntry cfg e s = lda cfg (resolve cfg s.mem e.mode s.pc s.x s.y) e.len s := by
  simp only [execEntry, hk]

theorem execEntry_sta (hk : e.kind = .sta) :
    execEntry cfg e s = sta cfg (resolve cfg s.mem e.mode s.pc s.x s.y) e.len s := by
  simp only [execEntry, hk]

theorem execEntry_tax (hk : e.kind = .tax) : execEntry cfg e s = tax s := by
  simp only [execEntry, hk]

theorem execEntry_tay (hk : e.kind = .tay) : execEntry cfg e s = tay cfg s := by
  simp only [execEntry, hk]

theorem execEntry_inx (hk : e.kind = .inx) : execEntry cfg e s = inx s := by
  simp only [execEntry, hk]

theorem execEntry_brk (hk : e.kind = .brk) : execEntry cfg e s = brk s := by
  simp only [execEntry, hk]

theorem tay_p_fromX (h : cfg.tayFlagSource = .fromX) : (tay cfg s).p = znStatus s.p s.x := by
  rw [tay_eq, h]; rfl

theorem tay_p_fromY (h : cfg.tayFlagSource = .fromY) : (tay cfg s).p = znStatus s.p s.a := by
  rw [tay_eq, h]; rfl

end

/-! ### LDA and STA: the outcome without a fault, and with one -/

section
variable {cfg : Config} {ea : Except Fault Word} {len : InstrLen} {s : State}

/-- An LDA that does not fault is a load (R100). -/
theorem lda_loads (h : ∀ f, (lda cfg ea len s).rs ≠ .faulted f) : ∃ v, lda cfg ea len s = loadA v len s := by
  obtain ⟨a, -, -, heq⟩ | ⟨a, -, -, heq⟩ | ⟨f, -, heq⟩ := lda_cases cfg ea len s
  · exact ⟨_, heq⟩
  · exact absurd (congrArg State.rs heq) (h _)
  · exact absurd (congrArg State.rs heq) (h _)

/-- An STA that does not fault ends with the operand skip, after the write (R110). -/
theorem sta_stores (h : ∀ f, (sta cfg ea len s).rs ≠ .faulted f) :
    ∃ m, sta cfg ea len s = advance len.skip (s.setMem m) := by
  obtain ⟨a, -, -, heq⟩ | ⟨a, -, -, heq⟩ | ⟨f, -, heq⟩ := sta_cases cfg ea len s
  · exact ⟨_, heq⟩
  · exact absurd (congrArg State.rs heq) (h _)
  · exact absurd (congrArg State.rs heq) (h _)

@[simp] theorem sta_p : (sta cfg ea len s).p = s.p := by
  obtain ⟨a, -, -, heq⟩ | ⟨a, -, -, heq⟩ | ⟨f, -, heq⟩ := sta_cases cfg ea len s
  all_goals rw [heq]; rfl

end

section
variable {cfg : Config} {e : OpcodeEntry} {s t : State} {f : Fault}

/-- From a Running state only `raise` sets RS to Faulted, and it changes nothing else (R134). -/
theorem EntryDoes.eq_raise (h : EntryDoes cfg e s t) (hs : s.rs = .running) (hf : t.rs = .faulted f) :
    t = raise f s := by
  have kept {u : State} (hu : u.rs = s.rs) : u.rs ≠ .faulted f := by rw [hu, hs]; exact nofun
  cases h with
  | load => exact absurd hf (kept rfl)
  | store => exact absurd hf (kept rfl)
  | dataFault | resolverFault => cases hf; rfl
  | tax => exact absurd hf (kept rfl)
  | tay => exact absurd hf (kept (tay_rs cfg s))
  | inx => exact absurd hf (kept rfl)
  | brk => cases hf

/-- A kind resolves an address for its data, or takes no operand (R55). -/
theorem kind_data_or_implied (k : Kind) :
    (k = .lda ∨ k = .sta) ∨ (k = .tax ∨ k = .tay ∨ k = .inx ∨ k = .brk) := by
  cases k <;> decide

/-- A well-formed entry of a kind without an operand is one byte long (R55). -/
theorem bytes_eq_one_of_wf (hwf : e.wf = true)
    (hk : e.kind = .tax ∨ e.kind = .tay ∨ e.kind = .inx ∨ e.kind = .brk) : e.len.bytes = 1 := by
  obtain ⟨hlen, hmode⟩ := Bool.and_eq_true_iff.mp hwf
  have hnone : e.mode = .noneAddressing := by
    obtain hk | hk | hk | hk := hk
    all_goals simpa [hk] using hmode
  simpa [hnone, Mode.opBytes] using hlen

/-! ### PC after the dispatch -/

theorem execEntry_pc_of_data (hk : e.kind = .lda ∨ e.kind = .sta)
    (hf : ∀ f, (execEntry cfg e s).rs ≠ .faulted f) : (execEntry cfg e s).pc = s.pc + e.len.skip := by
  obtain hk | hk := hk
  · rw [execEntry_lda hk] at hf ⊢
    obtain ⟨v, heq⟩ := lda_loads hf
    rw [heq, loadA_pc]
  · rw [execEntry_sta hk] at hf ⊢
    obtain ⟨m, heq⟩ := sta_stores hf
    rw [heq, advance_pc, setMem_pc]

theorem execEntry_pc_of_implied (hk : e.kind = .tax ∨ e.kind = .tay ∨ e.kind = .inx ∨ e.kind = .brk) :
    (execEntry cfg e s).pc = s.pc := by
  obtain hk | hk | hk | hk := hk
  · rw [execEntry_tax hk, tax_pc]
  · rw [execEntry_tay hk, tay_pc]
  · rw [execEntry_inx hk, inx_pc]
  · rw [execEntry_brk hk, brk_pc]

/-! ### The step that found an entry -/

theorem FetchesEntry.stepWith_eq (h : FetchesEntry cfg s e) :
    stepWith cfg s = execEntry cfg e (advance 1 s) := by
  obtain ⟨hrun, hpc, hentry⟩ := h
  exact stepWith_entry hrun hpc hentry

/-- A fault past the opcode byte leaves `pc1` and nothing else new but RS (R89, R134). -/
theorem FetchesEntry.execEntry_eq_raise (h : FetchesEntry cfg s e)
    (hf : (execEntry cfg e (advance 1 s)).rs = .faulted f) :
    execEntry cfg e (advance 1 s) = raise f (advance 1 s) := by
  obtain ⟨hrun, -, -⟩ := h
  exact (execEntry_does cfg e _).eq_raise hrun hf

end

/-! ### The obligations -/

/-- Settles O1: bit 1, bit 7 and the other bits of the status byte, one lemma each; both flags set would need
a zero byte with its high bit set. -/
theorem flagUpdateSetsZeroAndNegativeOnly : Obligations.FlagUpdateSetsZeroAndNegativeOnly := by
  intro v s
  obtain ⟨hz, hn, hother⟩ := flags_of_znStatus (setZN_p v s)
  refine ⟨hz, hn, hother, ?notBoth, rfl⟩
  case notBoth =>
    rintro ⟨hzero, hneg⟩
    have hv : v = 0 := of_decide_eq_true (hz.symm.trans hzero)
    rw [hn, hv] at hneg
    exact absurd hneg (by decide)

/-- Settles O27: the registry miss is found before PC moves, by the executor and by `fetch` alike. -/
theorem unlistedOpcodeFaults : Obligations.UnlistedOpcodeFaults := by
  intro s hrun
  refine ⟨fun cfg hpc hmiss => ?executor, fun hlt hmiss => ?step⟩
  case executor => exact stepWith_unimplemented hrun hpc hmiss
  case step => exact step_stopped (fetch_unimplemented hrun ((inRange_observed s.pc).2 hlt) hmiss)

/-- Settles O32: a fault is `raise` at `pc1`, LDA and STA end with the skip, the other kinds leave `pc1`, and
a well-formed entry of those kinds is one byte long. -/
theorem programCounterAfterStep : Obligations.ProgramCounterAfterStep := by
  intro cfg s e hfetch
  rw [hfetch.stepWith_eq]
  intro t
  have implied (hk : e.kind = .tax ∨ e.kind = .tay ∨ e.kind = .inx ∨ e.kind = .brk) : t.pc = s.pc + 1 :=
    execEntry_pc_of_implied hk
  refine ⟨fun ⟨f, hf⟩ => ?fault, fun hf => ?noFault⟩
  case fault => exact congrArg State.pc (hfetch.execEntry_eq_raise hf)
  case noFault =>
    have data (hk : e.kind = .lda ∨ e.kind = .sta) : t.pc = s.pc + BitVec.ofNat 16 e.len.bytes :=
      (execEntry_pc_of_data hk hf).trans (succ_add_skip s.pc e.len)
    refine ⟨data, implied, fun hwf _ => ?byLength⟩
    case byLength =>
      obtain hk | hk := kind_data_or_implied e.kind
      · exact data hk
      · rw [bytes_eq_one_of_wf hwf hk]; exact implied hk

/-- Settles O36: each kind that calls SetZN leaves P the status byte of the register named; the others, and a
fault, leave P. -/
theorem flagsComeFromTheResult : Obligations.FlagsComeFromTheResult := by
  intro cfg s e hfetch
  rw [hfetch.stepWith_eq]
  intro t flagsOf
  have flags {v : Byte} (h : t.p = znStatus s.p v) : flagsOf v := flags_of_znStatus h
  refine ⟨fun ⟨f, hf⟩ => ?fault, fun hk => ?noFlags, fun hf => ⟨fun hk => ?lda, fun hk => ?x, fun hk => ?tay⟩⟩
  case fault => exact (congrArg State.p (hfetch.execEntry_eq_raise hf)).trans (raise_p f _)
  case noFlags =>
    obtain hk | hk := hk
    · exact (congrArg State.p (execEntry_sta hk)).trans sta_p
    · exact (congrArg State.p (execEntry_brk hk)).trans (brk_p _)
  case lda =>
    have ht : t = lda cfg _ e.len (advance 1 s) := execEntry_lda hk
    rw [ht] at hf
    obtain ⟨v, heq⟩ := lda_loads hf
    have hload : t = loadA v e.len (advance 1 s) := ht.trans heq
    exact flags (by rw [hload]; rfl)
  case x =>
    obtain hk | hk := hk
    · have ht : t = tax (advance 1 s) := execEntry_tax hk
      exact flags (by rw [ht]; rfl)
    · have ht : t = inx (advance 1 s) := execEntry_inx hk
      exact flags (by rw [ht]; rfl)
  case tay =>
    have ht : t = tay cfg (advance 1 s) := execEntry_tay hk
    refine ⟨fun hsrc => flags ?_, fun hsrc => flags ?_⟩
    · rw [ht, tay_p_fromX hsrc, tay_x]; rfl
    · rw [ht, tay_p_fromY hsrc, tay_y]; rfl

end Sys2Proof.Machine
end

