-- ==== Sys2Proof/Proofs/LoadAccumulator.lean ====
section
/-! PROOFS. The obligation of 42_load_accumulator.md: the faults of a mode that has an operand, LDA for each
answer of the resolver, what a load leaves, then the kind for any entry. -/

namespace Sys2Proof.Machine

/-! ### The resolver's faults, by mode -/

section
variable {cfg : Config} {m : Memory} {mode : Mode} {pc1 : Word} {x y : Byte} {f : Fault}

/-- Only NoneAddressing raises the mode fault; any other mode faults by an operand byte (R80). -/
theorem resolve_error_of_operandMode (hmode : mode ≠ .noneAddressing)
    (h : resolve cfg m mode pc1 x y = .error f) : ∃ a, inRange cfg a = false ∧ f = .memoryOutOfRange a := by
  obtain ⟨hnone, -⟩ | hrange := resolve_error h
  · exact absurd hnone hmode
  · exact hrange

end

/-! ### LDA, an equation for each answer of the resolver and the data read -/

section
variable {cfg : Config} {a : Word} {len : InstrLen} {s : State}

@[simp] theorem lda_error (f : Fault) : lda cfg (.error f) len s = raise f s := rfl

theorem lda_outOfRange (h : inRange cfg a = false) :
    lda cfg (.ok a) len s = raise (.memoryOutOfRange a) s := by
  simp only [lda, memRead_outOfRange _ h]

theorem lda_inRange (h : inRange cfg a = true) :
    lda cfg (.ok a) len s = loadA (s.mem.read a.toNat) len s := by
  simp only [lda, memRead_inRange _ h]

/-- A load writes A, P and PC only, and PC by the length less one (R100). -/
theorem loadA_eq (v : Byte) :
    loadA v len s = { s with a := v, p := znStatus s.p v, pc := s.pc + BitVec.ofNat 16 (len.bytes - 1) } := by
  rw [← skip_eq]; rfl

/-- The three flag facts of R90 as bits of the status byte that SetZN writes. -/
theorem znStatus_flagBits (v : Byte) :
    (znStatus s.p v).getLsbD 1 = decide (v = 0) ∧ (znStatus s.p v).getLsbD 7 = v.getLsbD 7 ∧
      SameOtherStatusBits s.p (znStatus s.p v) := by
  simpa only [State.zero, State.negative, setZN_p] using flags_of_znStatus (setZN_p v s)

end

/-! ### The obligation -/

/-- Settles O9: one case for each answer of the resolver; past an address, the data read decides between the
load and its one fault. -/
theorem loadAnyEntry : Obligations.LoadAnyEntry := by
  intro cfg e s hk
  rw [execEntry_lda hk]
  refine ⟨fun hmode => ?noMode, fun f hf => ⟨?resolverFault, fun hmode => ?whichFault⟩,
    fun ea hea => ⟨fun h => ?dataFault, fun h => ?load⟩⟩
  case noMode => rw [hmode]; rfl
  case resolverFault => rw [hf]; exact lda_error f
  case whichFault => exact resolve_error_of_operandMode hmode hf
  case dataFault => rw [hea]; exact lda_outOfRange h
  case load =>
    rw [hea, lda_inRange h]
    exact ⟨_, loadA_eq _, znStatus_flagBits _⟩

end Sys2Proof.Machine
end

