-- ==== Sys2Proof/Proofs/StoreAccumulator.lean ====
section
/-! PROOFS. The obligation of 43_store_accumulator.md: STA for each answer of the resolver and the write, then
the kind for any entry. -/

namespace Sys2Proof.Machine

/-! ### STA, an equation for each answer of the resolver and the data write -/

section
variable {cfg : Config} {a : Word} {len : InstrLen} {s : State}

@[simp] theorem sta_error (f : Fault) : sta cfg (.error f) len s = raise f s := rfl

theorem sta_outOfRange (h : inRange cfg a = false) :
    sta cfg (.ok a) len s = raise (.memoryOutOfRange a) s := by
  simp only [sta, memWrite_outOfRange _ _ h]

/-- A store writes one byte of memory and PC, and PC by the length less one (R110). -/
theorem sta_inRange (h : inRange cfg a = true) :
    sta cfg (.ok a) len s =
      { s with mem := s.mem.write a.toNat s.a, pc := s.pc + BitVec.ofNat 16 (len.bytes - 1) } := by
  simp only [sta, memWrite_inRange _ _ h, ← skip_eq]; rfl

end

/-! ### The obligation -/

/-- Settles O10: one case for each answer of the resolver; past an address, the range check decides between the
one byte stored and the data fault. -/
theorem storeAnyEntry : Obligations.StoreAnyEntry := by
  intro cfg e s hk hwf
  rw [execEntry_sta hk]
  refine ⟨fun hmode => ?noMode, fun f hf => ⟨?resolverFault, fun hmode => ?whichFault⟩,
    fun ea hea => ⟨fun h => ?dataFault, fun h => ?store⟩⟩
  case noMode => rw [hmode]; rfl
  case resolverFault => rw [hf]; exact sta_error f
  case whichFault => exact resolve_error_of_operandMode hmode hf
  case dataFault => rw [hea]; exact sta_outOfRange h
  case store =>
    rw [hea]
    exact ⟨_, sta_inRange h, read_write_same _ _ hwf, fun _ hb => read_write_other _ _ _ hb⟩

end Sys2Proof.Machine
end

