-- ==== Sys2Proof/Proofs/Exceptions.lean ====
section
/-! PROOFS. The obligation of 60_exceptions.md: the fault of an entry that has no mode to resolve, what can
make the dispatch and the step fault, then the mode fault. -/

namespace Sys2Proof.Machine

section
variable {cfg : Config} {e : OpcodeEntry} {s t : State} {f : Fault}

/-- The resolver tests the mode before it reads anything, so no operand fault comes first (R135). -/
theorem execEntry_noneAddressing (hk : e.kind = .lda ∨ e.kind = .sta) (hmode : e.mode = .noneAddressing) :
    execEntry cfg e s = raise .unsupportedAddressingMode s := by
  have hres : resolve cfg s.mem e.mode s.pc s.x s.y = .error .unsupportedAddressingMode := by rw [hmode]; rfl
  obtain hk | hk := hk
  · rw [execEntry_lda hk, hres, lda_error]
  · rw [execEntry_sta hk, hres, sta_error]

/-- R55(b): the part of well-formedness that rules the mode fault out. -/
theorem mode_ne_noneAddressing_of_wf (hwf : e.wf = true) (hk : e.kind = .lda ∨ e.kind = .sta) :
    e.mode ≠ .noneAddressing := by
  obtain ⟨-, hmode⟩ := Bool.and_eq_true_iff.mp hwf
  obtain hk | hk := hk
  all_goals simpa [hk] using hmode

/-- The two faults of the dispatch and their causes: only LDA and STA fault, by the mode or by an address out of
range (R132, R133). -/
theorem EntryDoes.fault_cause (h : EntryDoes cfg e s t) (hs : s.rs = .running) (hf : t.rs = .faulted f) :
    (e.kind = .lda ∨ e.kind = .sta) ∧
      ((e.mode = .noneAddressing ∧ f = .unsupportedAddressingMode) ∨
        ∃ a, inRange cfg a = false ∧ f = .memoryOutOfRange a) := by
  have kept {u : State} (hu : u.rs = s.rs) : u.rs ≠ .faulted f := by rw [hu, hs]; exact nofun
  cases h with
  | dataFault a hk _ ha => cases hf; exact ⟨hk, .inr ⟨a, ha, rfl⟩⟩
  | resolverFault _ hk hr => cases hf; exact ⟨hk, resolve_error hr⟩
  | load | store | tax | inx => exact absurd hf (kept rfl)
  | tay => exact absurd hf (kept (tay_rs cfg s))
  | brk => cases hf

/-- The step's own faults, at the fetch and the decode, are other faults than the mode's (R131, R133). -/
theorem stepWith_unsupportedMode_cause (hrun : s.rs = .running)
    (hf : (stepWith cfg s).rs = .faulted .unsupportedAddressingMode) :
    ∃ e, FetchesEntry cfg s e ∧ (e.kind = .lda ∨ e.kind = .sta) ∧ e.mode = .noneAddressing := by
  have hdoes := stepWith_does cfg s
  generalize stepWith cfg s = t at hdoes hf
  cases hdoes with
  | idle hidle => exact absurd hrun hidle
  | fetchFault | unimplemented => cases hf
  | entry e _ _ hpc hentry ht =>
    obtain ⟨hk, ⟨hmode, -⟩ | ⟨a, -, hrange⟩⟩ := ht.fault_cause hrun hf
    · exact ⟨e, ⟨hrun, hpc, hentry⟩, hk, hmode⟩
    · cases hrange

end

/-! ### The obligation -/

/-- Settles O29: the resolver raises the mode fault first at `pc1`; of all a step can do only such an entry
raises it, and R55(b) keeps such an entry out of a well-formed registry. -/
theorem unsupportedModeNeedsIllFormedRegistry : Obligations.UnsupportedModeNeedsIllFormedRegistry := by
  refine ⟨fun cfg s e hfetch hk hmode => ?stateLeft, fun cfg s => stepWith_unsupportedMode_cause, regCanon_wf,
    fun cfg s hwf hrs hf => ?neverWellFormed⟩
  case stateLeft => exact hfetch.stepWith_eq.trans (execEntry_noneAddressing hk hmode)
  case neverWellFormed =>
    by_cases hrun : s.rs = .running
    · obtain ⟨e, ⟨-, -, hentry⟩, hk, hmode⟩ := stepWith_unsupportedMode_cause hrun hf
      exact mode_ne_noneAddressing_of_wf (entry_wf hwf hentry) hk hmode
    · rw [stepWith_idle hrun] at hf
      exact hrs hf

end Sys2Proof.Machine
end

