-- ==== Sys2Proof/Proofs/Encoding.lean ====
section
/-! PROOFS. The obligations of 30_encoding.md: the registry lookup, the operand bytes of an instruction, what
`assemble` answers, then the decoder against the encoder. -/

namespace Sys2Proof.Machine

/-! ### The registry lookup -/

theorem lookup_eq_none_iff (r : Registry) (b : Byte) : lookup r b = none ↔ b ∉ r.map Prod.fst := by
  induction r with
  | nil => simp [lookup]
  | cons p r ih =>
    obtain ⟨k, e⟩ := p
    by_cases hk : k = b
    · simp [lookup, hk]
    · simp [lookup, hk, ih, Ne.symm hk]

/-- Every instruction has its entry, of its kind, mode and length, in the canonical registry (R57). -/
theorem canonEntry (i : Instr) : Laws.CanonEntry.Statement i := by
  cases i with
  | brk => exact Laws.CanonEntry.brk
  | staIndX d8 => exact Laws.CanonEntry.staIndX d8
  | staZp d8 => exact Laws.CanonEntry.staZp d8
  | staAbs a16 => exact Laws.CanonEntry.staAbs a16
  | staIndY d8 => exact Laws.CanonEntry.staIndY d8
  | staZpX d8 => exact Laws.CanonEntry.staZpX d8
  | staAbsY a16 => exact Laws.CanonEntry.staAbsY a16
  | staAbsX a16 => exact Laws.CanonEntry.staAbsX a16
  | ldaIndX d8 => exact Laws.CanonEntry.ldaIndX d8
  | ldaZp d8 => exact Laws.CanonEntry.ldaZp d8
  | tay => exact Laws.CanonEntry.tay
  | ldaImm d8 => exact Laws.CanonEntry.ldaImm d8
  | tax => exact Laws.CanonEntry.tax
  | ldaAbs a16 => exact Laws.CanonEntry.ldaAbs a16
  | ldaIndY d8 => exact Laws.CanonEntry.ldaIndY d8
  | ldaZpX d8 => exact Laws.CanonEntry.ldaZpX d8
  | ldaAbsY a16 => exact Laws.CanonEntry.ldaAbsY a16
  | ldaAbsX a16 => exact Laws.CanonEntry.ldaAbsX a16
  | inx => exact Laws.CanonEntry.inx

/-- No two entries of the canonical registry share their kind and mode, so these give the opcode byte back. -/
theorem regCanon_kind_mode_unique : ∀ p ∈ regCanon, ∀ q ∈ regCanon,
    p.2.kind = q.2.kind → p.2.mode = q.2.mode → p.1 = q.1 := by decide

theorem opcode_of_lookup {b : Byte} {e : OpcodeEntry} {i : Instr} (hl : lookup regCanon b = some e)
    (hk : e.kind = i.kind) (hm : e.mode = i.mode) : opcode i = b := by
  obtain ⟨e', hl', hk', hm', -⟩ := canonEntry i
  exact regCanon_kind_mode_unique _ (lookup_mem hl') _ (lookup_mem hl) (hk'.trans hk.symm) (hm'.trans hm.symm)

/-- A row of the table for each canonical entry: its kind and mode are an instruction's (R57). -/
theorem form_of_mem_regCanon : ∀ p ∈ regCanon, ∃ i : Instr, p.2.kind = i.kind ∧ p.2.mode = i.mode := by
  simp only [regCanon, regCanonStores, regCanonLoads, List.cons_append, List.nil_append, List.forall_mem_cons]
  exact ⟨⟨.brk, rfl, rfl⟩, ⟨.staIndX 0, rfl, rfl⟩, ⟨.staZp 0, rfl, rfl⟩, ⟨.staAbs 0, rfl, rfl⟩,
    ⟨.staIndY 0, rfl, rfl⟩, ⟨.staZpX 0, rfl, rfl⟩, ⟨.staAbsY 0, rfl, rfl⟩, ⟨.staAbsX 0, rfl, rfl⟩,
    ⟨.ldaIndX 0, rfl, rfl⟩, ⟨.ldaZp 0, rfl, rfl⟩, ⟨.tay, rfl, rfl⟩, ⟨.ldaImm 0, rfl, rfl⟩, ⟨.tax, rfl, rfl⟩,
    ⟨.ldaAbs 0, rfl, rfl⟩, ⟨.ldaIndY 0, rfl, rfl⟩, ⟨.ldaZpX 0, rfl, rfl⟩, ⟨.ldaAbsY 0, rfl, rfl⟩,
    ⟨.ldaAbsX 0, rfl, rfl⟩, ⟨.inx, rfl, rfl⟩, nofun⟩

/-! ### What `assemble` answers -/

theorem operands_length (i : Instr) : (operands i).length = i.mode.opBytes := by cases i <;> rfl

theorem opBytes_le_two (mode : Mode) : mode.opBytes ≤ 2 := by cases mode <;> decide

section
variable {op : Byte} {e : OpcodeEntry} {i : Instr}

/-- The operand bytes of an instruction, read under an entry of its kind and mode, give the instruction. -/
theorem assemble_operands (rest : List Byte) (hk : e.kind = i.kind) (hm : e.mode = i.mode) :
    assemble op e (operands i ++ rest) = .ok (i, rest) := by
  obtain ⟨kind, len, cycles, mode⟩ := e
  obtain rfl : kind = i.kind := hk
  obtain rfl : mode = i.mode := hm
  cases i with
  | brk | tay | tax | inx => rfl
  | staIndX | staZp | staIndY | staZpX => rfl
  | ldaIndX | ldaZp | ldaImm | ldaIndY | ldaZpX => rfl
  | staAbs w | staAbsY w | staAbsX w | ldaAbs w | ldaAbsY w | ldaAbsX w =>
    simp [assemble, operands, Instr.kind, Instr.mode]

/-- An instruction comes only from an entry of its kind and mode, and from its own operand bytes. -/
theorem assemble_ok {bytes rest : List Byte} (h : assemble op e bytes = .ok (i, rest)) :
    e.kind = i.kind ∧ e.mode = i.mode ∧ bytes = operands i ++ rest := by
  unfold assemble at h
  split at h
  case h_20 => split at h <;> cases h
  all_goals cases h; simp_all [Instr.kind, Instr.mode, operands]

/-- The only error under an entry that has a row of the table is that operand bytes are missing (R59). -/
theorem assemble_error {bytes : List Byte} {err : DecodeError} (hk : e.kind = i.kind) (hm : e.mode = i.mode)
    (h : assemble op e bytes = .error err) :
    err = .missingOperand op ∧ bytes.length < i.mode.opBytes := by
  obtain ⟨kind, len, cycles, mode⟩ := e
  obtain rfl : kind = i.kind := hk
  obtain rfl : mode = i.mode := hm
  cases i with
  | brk | tay | tax | inx => cases h
  | staIndX | staZp | staIndY | staZpX | ldaIndX | ldaZp | ldaImm | ldaIndY | ldaZpX =>
    cases bytes with
    | nil => cases h; exact ⟨rfl, Nat.zero_lt_one⟩
    | cons d r => cases h
  | staAbs | staAbsY | staAbsX | ldaAbs | ldaAbsY | ldaAbsX =>
    obtain _ | ⟨lo, _ | ⟨hi, r⟩⟩ := bytes
    · cases h; exact ⟨rfl, Nat.zero_lt_two⟩
    · cases h; exact ⟨rfl, Nat.one_lt_two⟩
    · cases h

end

/-! ### The decoder -/

section
variable {op : Byte} {bytes rest : List Byte} {i : Instr}

theorem decode_listed {e : OpcodeEntry} (hl : lookup regCanon op = some e) :
    decode (op :: bytes) = assemble op e bytes := by
  simp only [decode, hl]

theorem decode_unlisted (hl : lookup regCanon op = none) :
    decode (op :: bytes) = .error (.unimplementedOpcode op) := by
  simp only [decode, hl]

theorem decode_encode (i : Instr) (rest : List Byte) : decode (encode i ++ rest) = .ok (i, rest) := by
  obtain ⟨e, hl, hk, hm, -⟩ := canonEntry i
  exact (decode_listed hl).trans (assemble_operands rest hk hm)

/-- What decodes begins with a listed byte, whose entry read the operand bytes. -/
theorem decode_ok (h : decode bytes = .ok (i, rest)) : bytes = encode i ++ rest := by
  obtain _ | ⟨b, r⟩ := bytes
  · cases h
  · cases hl : lookup regCanon b with
    | none => rw [decode_unlisted hl] at h; cases h
    | some e =>
      rw [decode_listed hl] at h
      obtain ⟨hk, hm, rfl⟩ := assemble_ok h
      rw [← opcode_of_lookup hl hk hm]; rfl

/-- Decoding after a listed byte fails only for want of operand bytes. -/
theorem decode_listed_error {e : OpcodeEntry} {err : DecodeError} (hl : lookup regCanon op = some e)
    (h : decode (op :: rest) = .error err) : err = .missingOperand op ∧ rest.length < e.mode.opBytes := by
  obtain ⟨i, hk, hm⟩ := form_of_mem_regCanon _ (lookup_mem hl)
  rw [decode_listed hl] at h
  rw [show e.mode = i.mode from hm]
  exact assemble_error hk hm h

theorem decode_unimplemented_iff :
    decode (op :: rest) = .error (.unimplementedOpcode op) ↔ lookup regCanon op = none := by
  refine ⟨fun h => ?_, decode_unlisted⟩
  cases hl : lookup regCanon op with
  | none => rfl
  | some e =>
    obtain ⟨hmissing, -⟩ := decode_listed_error hl h
    cases hmissing

end

/-! ### The obligations -/

/-- Settles O56: the entry of the instruction's opcode byte reads the operand bytes back. -/
theorem decodeInvertsEncode : Obligations.DecodeInvertsEncode := by
  intro i rest _
  obtain ⟨e, hl, hk, hm, hlen, -⟩ := canonEntry i
  exact ⟨decode_encode i rest, e, hl, hk, hm, hlen⟩

/-- Settles O57: `assemble` takes only the operand bytes of its instruction, and kind and mode give the opcode
byte back. -/
theorem decodedBytesAreTheEncoding : Obligations.DecodedBytesAreTheEncoding := by
  intro bytes rest i h
  exact decode_ok h

/-- Settles O58: the 19 bytes are the registry's keys; every listed entry has a row of the table, so that only
its operand bytes can be missing. -/
theorem decoderRejectsUnlistedBytes : Obligations.DecoderRejectsUnlistedBytes := by
  intro b rest
  refine ⟨decode_unimplemented_iff.trans (lookup_eq_none_iff regCanon b), fun err h => ?otherError⟩
  case otherError =>
    cases hl : lookup regCanon b with
    | none => rw [decode_unlisted hl] at h; cases h; exact .inl rfl
    | some e =>
      obtain ⟨herr, hlen⟩ := decode_listed_error hl h
      exact .inr ⟨herr, hlen.trans_le (opBytes_le_two e.mode)⟩

/-- Settles O55: each word is the encoding of its instruction. -/
theorem sampleWordsDecode : Obligations.SampleWordsDecode :=
  ⟨decode_encode (.ldaImm 0x05) [], decode_encode (.ldaZpX 0x80) [], decode_encode (.ldaAbsX 0x2000) [],
    decode_encode (.staZp 0x16) [], decode_encode (.staAbs 0x1234) [], decode_encode .tax [],
    decode_encode .tay [], decode_encode .inx [], decode_encode .brk []⟩

/-- BRK is the one listed byte below 0x80, so the two halves leave 127 and 110 bytes free. -/
theorem unlisted_bytes_length :
    ((List.range 256).filter fun b => (lookup regCanon (BitVec.ofNat 8 b)).isNone).length = 237 := by
  have halves : List.range 256 = List.range' 0 128 ++ List.range' 128 128 := by
    rw [List.range'_append_1, List.range_eq_range']
  have low : ((List.range' 0 128).filter fun b => (lookup regCanon (BitVec.ofNat 8 b)).isNone).length = 127 := rfl
  have high : ((List.range' 128 128).filter fun b => (lookup regCanon (BitVec.ofNat 8 b)).isNone).length = 110 := rfl
  rw [halves, List.filter_append, List.length_append, low, high]

/-- Settles O59: the registry is a closed list, checked entry by entry and byte by byte. -/
theorem canonicalRegistryIsWellFormed : Obligations.CanonicalRegistryIsWellFormed :=
  ⟨regCanon_wf, by decide, rfl, unlisted_bytes_length⟩

end Sys2Proof.Machine
end

