-- ==== Sys2Proof/Proofs/StepRefinement.lean ====
section
/-! PROOFS. The refinement of 41_executor.md section 1: the address an instruction's own operand gives, the
operand bytes against the resolver that reads them, the meanings as the dispatch of an entry, then the step. -/

namespace Sys2Proof.Machine

/-! ### An instruction's own length and address -/

/-- The length of an instruction as its registry entry has it (R50, R55). -/
def instrLen (i : Instr) : InstrLen :=
  match i.mode.opBytes with
  | 0 => .one
  | 1 => .two
  | _ => .three

/-- What the resolver answers for an instruction at PC, computed from the operand the instruction holds instead
of the operand bytes in memory (R70 to R80). -/
def instrAddress (i : Instr) (s : State) : Except Fault Word :=
  match i with
  | .ldaImm _ => .ok s.pc
  | .staZp d8 | .ldaZp d8 => .ok (eaZeroPage d8)
  | .staZpX d8 | .ldaZpX d8 => .ok (eaZeroPageIndexed d8 s.x)
  | .staAbs a16 | .ldaAbs a16 => .ok (eaAbsolute a16)
  | .staAbsX a16 | .ldaAbsX a16 => .ok (eaAbsoluteIndexed a16 s.x)
  | .staAbsY a16 | .ldaAbsY a16 => .ok (eaAbsoluteIndexed a16 s.y)
  | .staIndX d8 | .ldaIndX d8 => eaIndirectX cfgObserved s.mem d8 s.x
  | .staIndY d8 | .ldaIndY d8 => eaIndirectY cfgObserved s.mem d8 s.y
  | .tax | .tay | .inx | .brk => .error .unsupportedAddressingMode

theorem instrLen_of_bytes {i : Instr} {len : InstrLen} (h : len.bytes = (encode i).length) :
    len = instrLen i := by
  rw [encode, List.length_cons, operands_length] at h
  unfold instrLen
  cases len <;> simp only [InstrLen.bytes] at h
  · rw [show i.mode.opBytes = 0 by omega]; rfl
  · rw [show i.mode.opBytes = 1 by omega]; rfl
  · rw [show i.mode.opBytes = 2 by omega]; rfl

theorem exec_store {i : Instr} (hk : i.kind = .sta) (s : State) :
    exec i s = .next (sta cfgObserved (instrAddress i s) (instrLen i) s) := by
  cases i with
  | staIndX | staZp | staAbs | staIndY | staZpX | staAbsY | staAbsX => rfl
  | brk | tay | tax | inx => cases hk
  | ldaIndX | ldaZp | ldaImm | ldaAbs | ldaIndY | ldaZpX | ldaAbsY | ldaAbsX => cases hk

/-- LDA immediate has its value in the instruction; every other LDA reads it at the address. -/
theorem exec_load {i : Instr} (hk : i.kind = .lda) (himm : i.mode ≠ .immediate) (s : State) :
    exec i s = .next (lda cfgObserved (instrAddress i s) (instrLen i) s) := by
  cases i with
  | ldaIndX | ldaZp | ldaAbs | ldaIndY | ldaZpX | ldaAbsY | ldaAbsX => rfl
  | ldaImm => exact absurd rfl himm
  | brk | tay | tax | inx => cases hk
  | staIndX | staZp | staAbs | staIndY | staZpX | staAbsY | staAbsX => cases hk

/-! ### The operand bytes against the resolver -/

section
variable {cfg : Config} {m : Memory} {mode : Mode} {pc1 : Word}

theorem opBytes_cases (mode : Mode) : mode.opBytes = 0 ∨ mode.opBytes = 1 ∨ mode.opBytes = 2 := by
  cases mode <;> decide

/-- Everything the reading of the operand bytes can come to (R54, R135). -/
inductive OperandBytesAre (cfg : Config) (m : Memory) (mode : Mode) (pc1 : Word) : Except Fault (List Byte) → Prop
  | none (hm : mode.opBytes = 0) : OperandBytesAre cfg m mode pc1 (.ok [])
  | byte (hm : mode.opBytes = 1) (hp : inRange cfg pc1 = true) :
      OperandBytesAre cfg m mode pc1 (.ok [m.read pc1.toNat])
  | byteFault (hm : mode.opBytes = 1) (hp : inRange cfg pc1 = false) :
      OperandBytesAre cfg m mode pc1 (.error (.memoryOutOfRange pc1))
  | word (hm : mode.opBytes = 2) (hp : inRange cfg pc1 = true) (hq : inRange cfg (pc1 + 1) = true) :
      OperandBytesAre cfg m mode pc1 (.ok [m.read pc1.toNat, m.read (pc1 + 1).toNat])
  | wordFault (hm : mode.opBytes = 2) (hp : inRange cfg pc1 = false) :
      OperandBytesAre cfg m mode pc1 (.error (.memoryOutOfRange pc1))
  | secondFault (hm : mode.opBytes = 2) (hp : inRange cfg pc1 = true) (hq : inRange cfg (pc1 + 1) = false) :
      OperandBytesAre cfg m mode pc1 (.error (.memoryOutOfRange (pc1 + 1)))

theorem operandBytes_are (cfg : Config) (m : Memory) (mode : Mode) (pc1 : Word) :
    OperandBytesAre cfg m mode pc1 (operandBytes cfg m mode pc1) := by
  obtain hm | hm | hm := opBytes_cases mode
  · rw [operandBytes_none hm]; exact .none hm
  · cases hp : inRange cfg pc1
    · rw [operandBytes_byte_error hm hp]; exact .byteFault hm hp
    · rw [operandBytes_byte_ok hm hp]; exact .byte hm hp
  · cases hp : inRange cfg pc1
    · rw [operandBytes_word_low hm hp]; exact .wordFault hm hp
    · cases hq : inRange cfg (pc1 + 1)
      · rw [operandBytes_word_high hm hp hq]; exact .secondFault hm hp hq
      · rw [operandBytes_word_ok hm hp hq]; exact .word hm hp hq

theorem operandBytes_length {bs : List Byte} (h : operandBytes cfg m mode pc1 = .ok bs) :
    bs.length = mode.opBytes := by
  cases h ▸ operandBytes_are cfg m mode pc1 with
  | none hm | byte hm | word hm => exact hm.symm

theorem operandBytes_byte_inv {d8 : Byte} (h : operandBytes cfg m mode pc1 = .ok [d8]) :
    inRange cfg pc1 = true ∧ m.read pc1.toNat = d8 := by
  cases h ▸ operandBytes_are cfg m mode pc1 with
  | byte _ hp => exact ⟨hp, rfl⟩

theorem operandBytes_word_inv {lo hi : Byte} (h : operandBytes cfg m mode pc1 = .ok [lo, hi]) :
    inRange cfg pc1 = true ∧ inRange cfg (pc1 + 1) = true ∧
      m.read pc1.toNat = lo ∧ m.read (pc1 + 1).toNat = hi := by
  cases h ▸ operandBytes_are cfg m mode pc1 with
  | word _ hp hq => exact ⟨hp, hq, rfl, rfl⟩

theorem withByteOperand_of_operandBytes {d8 : Byte} (k : Byte → Except Fault Word)
    (h : operandBytes cfg m mode pc1 = .ok [d8]) : withByteOperand cfg m pc1 k = k d8 := by
  obtain ⟨hp, rfl⟩ := operandBytes_byte_inv h
  exact withByteOperand_inRange m k hp

theorem withWordOperand_of_operandBytes {w : Word} (k : Word → Except Fault Word)
    (h : operandBytes cfg m mode pc1 = .ok [loByte w, hiByte w]) : withWordOperand cfg m pc1 k = k w := by
  obtain ⟨hp, hq, hlo, hhi⟩ := operandBytes_word_inv h
  rw [withWordOperand_inRange m k hp hq, hlo, hhi, joinBytes_hi_lo]

/-- Where an operand byte is out of range the resolver raises the same fault, but for Immediate, which leaves the
read to the data access (R71). -/
theorem resolve_of_operandFault {x y : Byte} {f : Fault} (h : operandBytes cfg m mode pc1 = .error f) :
    resolve cfg m mode pc1 x y = .error f ∨
      (resolve cfg m mode pc1 x y = .ok pc1 ∧ inRange cfg pc1 = false ∧ f = .memoryOutOfRange pc1) := by
  cases h ▸ operandBytes_are cfg m mode pc1 with
  | byteFault hm hp =>
    cases mode with
    | immediate => exact .inr ⟨rfl, hp, rfl⟩
    | zeroPage | zeroPageX | zeroPageY | indirectX | indirectY => exact .inl (withByteOperand_outOfRange m _ hp)
    | absolute | absoluteX | absoluteY | noneAddressing => cases hm
  | wordFault hm hp =>
    cases mode <;> cases hm
    all_goals exact .inl (withWordOperand_outOfRange m _ hp)
  | secondFault hm hp hq =>
    cases mode <;> cases hm
    all_goals exact .inl (withWordOperand_secondOutOfRange m _ hp hq)

end

/-- The resolver computes an instruction's own address when the instruction's operand bytes are at PC. -/
theorem resolve_eq_instrAddress {i : Instr} {s : State}
    (h : operandBytes cfgObserved s.mem i.mode s.pc = .ok (operands i)) :
    resolve cfgObserved s.mem i.mode s.pc s.x s.y = instrAddress i s := by
  cases i with
  | brk | tay | tax | inx | ldaImm => rfl
  | staZp | ldaZp | staZpX | ldaZpX | staIndX | ldaIndX | staIndY | ldaIndY =>
    exact withByteOperand_of_operandBytes _ h
  | staAbs | ldaAbs | staAbsX | ldaAbsX | staAbsY | ldaAbsY => exact withWordOperand_of_operandBytes _ h

/-! ### The meaning of an instruction as the dispatch of its entry -/

section
variable {e : OpcodeEntry} {i : Instr} {s : State}

/-- The nineteen meanings are the six kinds at the nineteen entries (R101 to R125). -/
theorem exec_eq_execEntry (hk : e.kind = i.kind) (hm : e.mode = i.mode) (hlen : e.len.bytes = (encode i).length)
    (h : operandBytes cfgObserved s.mem i.mode s.pc = .ok (operands i)) :
    exec i s = .next (execEntry cfgObserved e s) := by
  have hres := resolve_eq_instrAddress h
  cases hi : i.kind with
  | sta => rw [exec_store hi, execEntry_sta (hk.trans hi), hm, hres, instrLen_of_bytes hlen]
  | lda =>
    rw [execEntry_lda (hk.trans hi), hm, hres, instrLen_of_bytes hlen]
    by_cases himm : i.mode = .immediate
    · cases i <;> cases himm
      obtain ⟨hp, rfl⟩ := operandBytes_byte_inv h
      exact congrArg Host.Outcome.next (lda_inRange hp).symm
    · exact exec_load hi himm s
  | tax => rw [execEntry_tax (hk.trans hi)]; cases i <;> cases hi; rfl
  | tay => rw [execEntry_tay (hk.trans hi)]; cases i <;> cases hi; rfl
  | inx => rw [execEntry_inx (hk.trans hi)]; cases i <;> cases hi; rfl
  | brk => rw [execEntry_brk (hk.trans hi)]; cases i <;> cases hi; rfl

/-- R55(a): the length counts the opcode byte and the mode's operand bytes. -/
theorem bytes_of_wf (hwf : e.wf = true) : e.len.bytes = 1 + e.mode.opBytes :=
  beq_iff_eq.mp (Bool.and_eq_true_iff.mp hwf).1

/-- An operand byte out of range is the fault of the whole dispatch; a kind without a mode reads none. -/
theorem execEntry_of_operandFault {cfg : Config} {f : Fault} (hwf : e.wf = true)
    (h : operandBytes cfg s.mem e.mode s.pc = .error f) : execEntry cfg e s = raise f s := by
  obtain hk | hk := kind_data_or_implied e.kind
  · obtain hr | ⟨hr, hp, rfl⟩ := resolve_of_operandFault (x := s.x) (y := s.y) h
    all_goals obtain hk | hk := hk
    · rw [execEntry_lda hk, hr, lda_error]
    · rw [execEntry_sta hk, hr, sta_error]
    · rw [execEntry_lda hk, hr, lda_outOfRange hp]
    · rw [execEntry_sta hk, hr, sta_outOfRange hp]
  · have hnone : e.mode.opBytes = 0 := by
      have := bytes_of_wf hwf
      rw [bytes_eq_one_of_wf hwf hk] at this
      omega
    rw [operandBytes_none hnone] at h; cases h

end

/-! ### The fetch of a listed byte -/

/-- The operand bytes a listed entry asks for decode, and to an instruction of that entry. -/
theorem decode_operandBytes {op : Byte} {e : OpcodeEntry} {m : Memory} {pc1 : Word} {bs : List Byte}
    (hl : lookup regCanon op = some e) (h : operandBytes cfgObserved m e.mode pc1 = .ok bs) :
    ∃ i, decode (op :: bs) = .ok (i, []) ∧ operands i = bs ∧
      e.kind = i.kind ∧ e.mode = i.mode ∧ e.len.bytes = (encode i).length := by
  have hlength := operandBytes_length h
  cases hd : decode (op :: bs) with
  | error err =>
    obtain ⟨-, hshort⟩ := decode_listed_error hl hd
    omega
  | ok p =>
    obtain ⟨i, rest⟩ := p
    obtain ⟨rfl, rfl⟩ : op = opcode i ∧ bs = operands i ++ rest := List.cons.inj (decode_ok hd)
    obtain ⟨e', hl', hk, hm, hlen, -⟩ := canonEntry i
    obtain rfl : e' = e := Option.some.inj (hl'.symm.trans hl)
    rw [List.length_append, operands_length, ← hm] at hlength
    obtain rfl : rest = [] := List.eq_nil_of_length_eq_zero (by omega)
    exact ⟨i, rfl, (List.append_nil _).symm, hk, hm, hlen⟩

/-- A step over a listed byte is the dispatch of its entry (R85). -/
theorem step_of_entry {s : State} {e : OpcodeEntry} (hrun : s.rs = .running)
    (hpc : inRange cfgObserved s.pc = true) (hl : lookup regCanon (s.mem.read s.pc.toNat) = some e) :
    step s = .next (execEntry cfgObserved e (advance 1 s)) := by
  cases ho : operandBytes cfgObserved s.mem e.mode (s.pc + 1) with
  | error f =>
    rw [step_stopped (fetch_operandFault hrun hpc hl ho)]
    exact congrArg Host.Outcome.next (execEntry_of_operandFault (entry_wf regCanon_wf hl) ho).symm
  | ok bs =>
    obtain ⟨i, hd, rfl, hk, hm, hlen⟩ := decode_operandBytes hl ho
    rw [step_ready (fetch_ready hrun hpc hl ho hd)]
    exact exec_eq_execEntry hk hm hlen (hm ▸ ho)

/-! ### An instruction whole in memory -/

/-- The operand bytes in memory, where the instruction lies in memory whole. -/
theorem operandBytes_of_decode {s : State} {i : Instr} {rest : List Byte}
    (hin : s.pc.toNat + (encode i).length ≤ 0xFFFF)
    (hd : decode [s.mem.read s.pc.toNat, s.mem.read (s.pc.toNat + 1), s.mem.read (s.pc.toNat + 2)] = .ok (i, rest)) :
    operandBytes cfgObserved s.mem i.mode (s.pc + 1) = .ok (operands i) := by
  obtain ⟨-, hbytes⟩ := List.cons.inj (decode_ok hd)
  have hlen := operands_length i
  rw [encode, List.length_cons, hlen] at hin
  have hpc1 : (s.pc + 1).toNat = s.pc.toNat + 1 := by rw [succ_toNat]; omega
  obtain hm | hm | hm := opBytes_cases i.mode
  · rw [operandBytes_none hm, List.eq_nil_of_length_eq_zero (hlen.trans hm)]
  · obtain ⟨d8, hops⟩ := List.length_eq_one_iff.mp (hlen.trans hm)
    rw [hops] at hbytes ⊢
    rw [operandBytes_byte_ok hm (by rw [inRange_observed]; omega), hpc1, (List.cons.inj hbytes).1]
  · obtain ⟨lo, hi, hops⟩ := List.length_eq_two.mp (hlen.trans hm)
    have hpc2 : (s.pc + 1 + 1).toNat = s.pc.toNat + 2 := by rw [succ_toNat]; omega
    rw [hops] at hbytes ⊢
    obtain ⟨hlo, htail⟩ := List.cons.inj hbytes
    rw [operandBytes_word_ok hm (by rw [inRange_observed]; omega) (by rw [inRange_observed]; omega), hpc1, hpc2,
      hlo, (List.cons.inj htail).1]

/-! ### A placed instruction -/

/-- Three bytes fit wherever `fetchAddress` puts them (log 6). -/
theorem fetchAddress_le (pc : Word) : (fetchAddress pc).toNat + 3 ≤ 0xFFFF := by
  unfold fetchAddress
  split
  · assumption
  · decide

theorem encode_length_le (i : Instr) : (encode i).length ≤ 3 := by
  have := opBytes_le_two i.mode
  rw [encode, List.length_cons, operands_length]; omega

theorem decode_of_tableWord {nbits w : Nat} {i : Instr} (h : decodeTableWord nbits w = some i) :
    ∃ rest, decode (tableBytes nbits w) = .ok (i, rest) := by
  unfold decodeTableWord at h
  split at h <;> cases h
  exact ⟨_, ‹_›⟩

/-- The bytes read from the place they were written to. -/
theorem read_tableBytes {m : Memory} (hwf : m.wf = true) (a nbits w : Nat) :
    let m' := m.writeBytes a (tableBytes nbits w)
    [m'.read a, m'.read (a + 1), m'.read (a + 2)] = tableBytes nbits w := by
  simp [tableBytes, read_writeBytes _ _ _ hwf]

/-! ### The obligations -/

/-- Settles O25: the two machines agree outside Running, at each fault of the fetch and the decode, and over a
listed byte, where the instruction's meaning is the dispatch of its entry. -/
theorem stepFollowsExecutorPseudocode : Obligations.StepFollowsExecutorPseudocode := by
  intro s
  by_cases hrun : s.rs = .running
  · cases hpc : inRange cfgObserved s.pc
    · rw [stepWith_fetchFault hrun hpc, step_stopped (fetch_outOfRange hrun hpc)]
    · cases hl : lookup regCanon (s.mem.read s.pc.toNat) with
      | none => rw [stepWith_unimplemented hrun hpc hl, step_stopped (fetch_unimplemented hrun hpc hl)]
      | some e => rw [stepWith_entry hrun hpc hl, step_of_entry hrun hpc hl]
  · rw [stepWith_idle hrun, step_idle hrun]

/-- Settles O24: the bytes are the instruction's encoding, so the opcode byte is listed and the operand bytes are
the instruction's own. -/
theorem stepRunsDecodedInstruction : Obligations.StepRunsDecodedInstruction := by
  intro s i rest hrun hin hd
  have hop : s.mem.read s.pc.toNat = opcode i := (List.cons.inj (decode_ok hd)).1
  obtain ⟨e, hl, -, hm, -⟩ := canonEntry i
  rw [← hop] at hl
  have hpc : inRange cfgObserved s.pc = true := by
    rw [encode, List.length_cons] at hin
    rw [inRange_observed]; omega
  have hfetch : fetch s = .ready i (advance 1 s) := by
    refine fetch_ready hrun hpc hl (hm ▸ operandBytes_of_decode hin hd) ?_ (rest := [])
    rw [hop, ← List.append_nil (operands i)]
    exact decode_encode i []
  exact step_ready hfetch

/-- Settles O60: the placed bytes are read back at the fetch address, and there the step runs what they decode
to. -/
theorem placedInstructionRunsNext : Obligations.PlacedInstructionRunsNext := by
  intro s nbits w i hwf hword
  obtain ⟨rest, hd⟩ := decode_of_tableWord hword
  refine ⟨_, rfl, rfl, rfl, rfl, rfl, rfl, fun hin => if_pos hin, ?runs⟩
  case runs =>
    refine stepRunsDecodedInstruction _ i rest rfl ?_ ?_
    · exact (Nat.add_le_add_left (encode_length_le i) _).trans (fetchAddress_le s.pc)
    · exact (congrArg decode (read_tableBytes hwf _ nbits w)).trans hd

end Sys2Proof.Machine
end

