-- ==== Sys2Proof/Proofs/StepEffects.lean ====
section
/-! PROOFS. The effects of one step in any configuration (10_state.md section 7, 20_memory.md section 6,
41_executor.md section 5, 60_exceptions.md): what each kind may write, the run state a step leaves, where a fault
comes from, and how far PC moves. -/

namespace Sys2Proof.Machine

section
variable {cfg : Config} {e : OpcodeEntry} {s t : State} {f : Fault}

/-! ### What each kind writes -/

/-- The registers, the flags and the memory an entry of a kind may change (10_state.md section 7). -/
structure KindWrites (k : Kind) (s t : State) : Prop where
  a : t.a ≠ s.a → k = .lda
  x : t.x ≠ s.x → k = .tax ∨ k = .inx
  y : t.y ≠ s.y → k = .tay
  p : t.p ≠ s.p → k ≠ .sta ∧ k ≠ .brk
  mem : t.mem ≠ s.mem → k = .sta
  otherBits : SameOtherStatusBits s.p t.p

theorem sameOtherStatusBits_refl (p : Byte) : SameOtherStatusBits p p := fun _ _ _ => rfl

theorem sameOtherStatusBits_tay (cfg : Config) (s : State) : SameOtherStatusBits s.p (tay cfg s).p := by
  rw [tay_eq]
  exact sameOtherStatusBits_znStatus _ _

theorem EntryDoes.kindWrites (h : EntryDoes cfg e s t) : KindWrites e.kind s t := by
  have same {v : Prop} {α : Type} {c : α} (hne : c ≠ c) : v := absurd rfl hne
  cases h with
  | load _ hk =>
    exact ⟨fun _ => hk, same, same, fun _ => by simp [hk], same, sameOtherStatusBits_znStatus _ _⟩
  | store _ hk => exact ⟨same, same, same, same, fun _ => hk, sameOtherStatusBits_refl _⟩
  | dataFault | resolverFault => exact ⟨same, same, same, same, same, sameOtherStatusBits_refl _⟩
  | tax hk =>
    exact ⟨same, fun _ => .inl hk, same, fun _ => by simp [hk], same, sameOtherStatusBits_znStatus _ _⟩
  | tay hk =>
    exact ⟨fun h => same (tay_a cfg s ▸ h), fun h => same (tay_x cfg s ▸ h), fun _ => hk, fun _ => by simp [hk],
      fun h => same (tay_mem cfg s ▸ h), sameOtherStatusBits_tay cfg s⟩
  | inx hk =>
    exact ⟨same, fun _ => .inr hk, same, fun _ => by simp [hk], same, sameOtherStatusBits_znStatus _ _⟩
  | brk => exact ⟨same, same, same, same, same, sameOtherStatusBits_refl _⟩

/-! ### The run state a step leaves -/

/-- A step found an entry, or it was idle, or it faulted before PC moved. -/
theorem stepWith_cases (cfg : Config) (s : State) :
    (∃ e, FetchesEntry cfg s e ∧ EntryDoes cfg e (advance 1 s) (stepWith cfg s)) ∨
    (s.rs ≠ .running ∧ stepWith cfg s = s) ∨
    (s.rs = .running ∧ (∀ e, ¬ FetchesEntry cfg s e) ∧ ∃ f, stepWith cfg s = raise f s ∧
      ((inRange cfg s.pc = false ∧ f = .memoryOutOfRange s.pc) ∨
        (lookup cfg.registry (s.mem.read s.pc.toNat) = none ∧
          f = .unimplementedOpcode (s.mem.read s.pc.toNat)))) := by
  have hdoes := stepWith_does cfg s
  generalize stepWith cfg s = t at hdoes
  cases hdoes with
  | idle h => exact .inr (.inl ⟨h, rfl⟩)
  | fetchFault h hp =>
    refine .inr (.inr ⟨h, fun e ⟨_, hin, _⟩ => ?_, _, rfl, .inl ⟨hp, rfl⟩⟩)
    rw [hp] at hin; cases hin
  | unimplemented h _ hl =>
    refine .inr (.inr ⟨h, fun e ⟨_, _, hsome⟩ => ?_, _, rfl, .inr ⟨hl, rfl⟩⟩)
    rw [hl] at hsome; cases hsome
  | entry e _ h hp hl ht => exact .inl ⟨e, ⟨h, hp, hl⟩, ht⟩

/-- BRK halts, LDA and STA may fault, and every other outcome leaves RS. -/
theorem EntryDoes.rs_cases (h : EntryDoes cfg e s t) :
    (e.kind = .brk ∧ t.rs = .halted) ∨ (e.kind ≠ .brk ∧ (t.rs = s.rs ∨ ∃ f, t.rs = .faulted f)) := by
  cases h with
  | load _ hk | store _ hk | tax hk | inx hk => exact .inr ⟨by simp [hk], .inl rfl⟩
  | tay hk => exact .inr ⟨by simp [hk], .inl (tay_rs cfg s)⟩
  | dataFault _ hk | resolverFault _ hk =>
    exact .inr ⟨fun hb => by simp [hb] at hk, .inr ⟨_, rfl⟩⟩
  | brk hk => exact .inl ⟨hk, rfl⟩

/-- The run state after a step from Running (60_exceptions.md section 5). -/
theorem stepWith_rs_cases (hrun : s.rs = .running) :
    ((∃ e, FetchesEntry cfg s e ∧ e.kind = .brk) ∧ (stepWith cfg s).rs = .halted) ∨
      (stepWith cfg s).rs = .running ∨ ∃ f, (stepWith cfg s).rs = .faulted f := by
  obtain ⟨e, hfetch, hdoes⟩ | ⟨hidle, -⟩ | ⟨-, -, f, heq, -⟩ := stepWith_cases cfg s
  · obtain ⟨hk, hrs⟩ | ⟨-, hrs | hrs⟩ := hdoes.rs_cases
    · exact .inl ⟨⟨e, hfetch, hk⟩, hrs⟩
    · exact .inr (.inl (hrs.trans hrun))
    · exact .inr (.inr hrs)
  · exact absurd hrun hidle
  · exact .inr (.inr ⟨f, by rw [heq]; rfl⟩)

/-! ### Where a fault comes from -/

/-- The causes of a fault past the opcode byte, and the state it leaves. -/
theorem FetchesEntry.fault_cause (hfetch : FetchesEntry cfg s e) (hf : (stepWith cfg s).rs = .faulted f) :
    stepWith cfg s = raise f (advance 1 s) ∧ (e.kind = .lda ∨ e.kind = .sta) ∧
      ((e.mode = .noneAddressing ∧ f = .unsupportedAddressingMode) ∨
        ∃ a, inRange cfg a = false ∧ f = .memoryOutOfRange a) := by
  rw [hfetch.stepWith_eq] at hf ⊢
  have hraise := hfetch.execEntry_eq_raise hf
  obtain ⟨hrun, -, -⟩ := hfetch
  exact ⟨hraise, (execEntry_does cfg e (advance 1 s)).fault_cause hrun hf⟩

theorem stepWith_outOfRange_cause {a : Word} (hrun : s.rs = .running)
    (hf : (stepWith cfg s).rs = .faulted (.memoryOutOfRange a)) : inRange cfg a = false := by
  obtain ⟨e, hfetch, -⟩ | ⟨hidle, -⟩ | ⟨-, -, f, heq, hcause⟩ := stepWith_cases cfg s
  · obtain ⟨-, -, ⟨-, hmode⟩ | ⟨b, hb, hrange⟩⟩ := hfetch.fault_cause hf
    · cases hmode
    · cases hrange; exact hb
  · exact absurd hrun hidle
  · rw [heq] at hf
    obtain rfl : f = .memoryOutOfRange a := RunState.faulted.inj hf
    obtain ⟨hp, hpc⟩ | ⟨-, hbyte⟩ := hcause
    · cases hpc; exact hp
    · cases hbyte

/-! ### How far PC moves -/

theorem skip_toNat_of_wf (hwf : e.wf = true) : e.len.skip.toNat = e.mode.opBytes := by
  have := opBytes_le_two e.mode
  rw [skip_eq, bytes_of_wf hwf, Nat.add_sub_cancel_left, BitVec.toNat_ofNat]
  omega

/-- With the observed memory an address in range has a next one without a wrap. -/
theorem succ_toNat_of_inRange {a : Word} (hobs : cfg.memSize = .observed) (h : inRange cfg a = true) :
    (a + 1).toNat = a.toNat + 1 := by
  rw [inRange_iff, hobs] at h
  simp only [MemSize.bytes] at h
  rw [succ_toNat]; omega

/-- The data access of Immediate is its operand read, so LDA and STA that complete had every operand byte in
range, and the skip of a well-formed entry does not wrap. -/
theorem skip_no_wrap {m : Memory} {pc1 a : Word} {x y : Byte} (hobs : cfg.memSize = .observed) (hwf : e.wf = true)
    (hr : resolve cfg m e.mode pc1 x y = .ok a) (ha : inRange cfg a = true) :
    (pc1 + e.len.skip).toNat = pc1.toNat + e.mode.opBytes := by
  rw [BitVec.toNat_add, skip_toNat_of_wf hwf]
  obtain ⟨hm, rfl⟩ | ⟨hm, hp⟩ | ⟨hm, hp, hq⟩ := resolve_ok hr
  · have := succ_toNat_of_inRange hobs ha
    have := (a + 1).isLt
    rw [hm, Mode.opBytes]; omega
  · have := succ_toNat_of_inRange hobs hp
    have := (pc1 + 1).isLt
    omega
  · have := succ_toNat_of_inRange hobs hp
    have := succ_toNat_of_inRange hobs hq
    have := (pc1 + 1 + 1).isLt
    omega

/-- Past the opcode byte PC never moves down (R89). -/
theorem EntryDoes.pc_le (h : EntryDoes cfg e s t) (hobs : cfg.memSize = .observed) (hwf : e.wf = true) :
    s.pc.toNat ≤ t.pc.toNat := by
  cases h with
  | load a _ hr ha => rw [loadA_pc, skip_no_wrap hobs hwf hr ha]; exact Nat.le_add_right _ _
  | store a _ hr ha => rw [advance_pc, setMem_pc, skip_no_wrap hobs hwf hr ha]; exact Nat.le_add_right _ _
  | dataFault | resolverFault | tax | inx | brk => exact le_rfl
  | tay => rw [tay_pc]

end

/-! ### The obligations -/

/-- Settles O26: `fetch` and the executor are idle there. -/
theorem noStepOutsideRunning : Obligations.NoStepOutsideRunning := by
  intro s h
  exact ⟨step_idle h, fun cfg => by rw [hostStep, stepWith_idle h]⟩

/-- Settles O28: the executor raises the fault at the fetch; `step` is the executor at CFG_OBSERVED, where 0xFFFF is
out of range. -/
theorem fetchBeyondMemoryFaults : Obligations.FetchBeyondMemoryFaults := by
  intro s hrun
  refine ⟨fun cfg hp => stepWith_fetchFault hrun hp, fun hpc => ?top⟩
  case top =>
    have hp : inRange cfgObserved s.pc = false := by rw [hpc]; decide
    rw [stepFollowsExecutorPseudocode s, stepWith_fetchFault hrun hp]
    exact congrArg (fun a => Host.Outcome.next (raise (.memoryOutOfRange a) s)) hpc

/-- Settles O30: every MemoryOutOfRange names an address out of range, and only 0xFFFF can be. -/
theorem outOfRangeOnlyAtTopOfObservedMemory : Obligations.OutOfRangeOnlyAtTopOfObservedMemory := by
  intro cfg s a hrun hf
  exact (not_inRange_iff cfg a).1 (stepWith_outOfRange_cause hrun hf)

/-- Settles O31: a fault is `raise` at the state the step began in, or one past the opcode byte. -/
theorem faultsArePrecise : Obligations.FaultsArePrecise := by
  intro cfg s f hrun hf
  obtain ⟨e, hfetch, -⟩ | ⟨hidle, -⟩ | ⟨-, hnone, g, heq, -⟩ := stepWith_cases cfg s
  · obtain ⟨heq, hk, -⟩ := hfetch.fault_cause hf
    exact .inr ⟨heq, e, hfetch, hk⟩
  · exact absurd hrun hidle
  · rw [heq] at hf
    obtain rfl : g = f := RunState.faulted.inj hf
    exact .inl ⟨heq, hnone⟩

/-- Settles O33: the opcode byte moves PC up by one without a wrap, and the skip moves it no lower. -/
theorem forwardProgressWithoutWrap : Obligations.ForwardProgressWithoutWrap := by
  intro cfg s hobs hwf hrun hnofault
  obtain ⟨e, ⟨-, hpc, hl⟩, hdoes⟩ | ⟨hidle, -⟩ | ⟨-, -, f, heq, -⟩ := stepWith_cases cfg s
  · have hup := succ_toNat_of_inRange hobs hpc
    have hle := hdoes.pc_le hobs (entry_wf hwf hl)
    rw [advance_pc] at hle
    omega
  · exact absurd hrun hidle
  · exact absurd (congrArg State.rs heq) (hnofault f)

/-- Settles O34: of the outcomes of a step only BRK's sets Halted, and none sets Ready. -/
theorem onlyHaltInstructionHalts : Obligations.OnlyHaltInstructionHalts := by
  intro cfg s hrun
  refine ⟨⟨fun hhalt => ?entry, fun ⟨e, hfetch, hk⟩ => ?halts⟩, fun hready => ?ready⟩
  case entry =>
    obtain ⟨hentry, -⟩ | hrs | ⟨f, hrs⟩ := stepWith_rs_cases (cfg := cfg) hrun
    · exact hentry
    all_goals rw [hhalt] at hrs; cases hrs
  case halts => rw [hfetch.stepWith_eq, execEntry_brk hk, brk_rs]
  case ready =>
    obtain ⟨-, hrs⟩ | hrs | ⟨f, hrs⟩ := stepWith_rs_cases (cfg := cfg) hrun
    all_goals rw [hready] at hrs; cases hrs

/-- Settles O35: what an entry's kind may write, and a step without an entry writes RS at most. -/
theorem onlyNamedInstructionsWrite : Obligations.OnlyNamedInstructionsWrite := by
  intro cfg s t
  obtain ⟨e, hfetch, hdoes⟩ | hnone :
      (∃ e, FetchesEntry cfg s e ∧ KindWrites e.kind s t) ∨ ∃ r, t = s.setRs r := by
    obtain ⟨e, hfetch, hdoes⟩ | ⟨-, heq⟩ | ⟨-, -, f, heq, -⟩ := stepWith_cases cfg s
    · have h := hdoes.kindWrites
      exact .inl ⟨e, hfetch, h.a, h.x, h.y, h.p, h.mem, h.otherBits⟩
    · exact .inr ⟨s.rs, heq⟩
    · exact .inr ⟨.faulted f, heq⟩
  · exact ⟨fun h => ⟨e, hfetch, hdoes.a h⟩, fun h => ⟨e, hfetch, hdoes.x h⟩, fun h => ⟨e, hfetch, hdoes.y h⟩,
      fun h => ⟨e, hfetch, hdoes.p h⟩, fun h => ⟨e, hfetch, hdoes.mem h⟩, hdoes.otherBits⟩
  · obtain ⟨r, ht⟩ := hnone
    rw [ht]
    exact ⟨absurd rfl, absurd rfl, absurd rfl, absurd rfl, absurd rfl, sameOtherStatusBits_refl _⟩

/-- Settles O37: the store goes through `Memory.write`, which a read of the address gives back, and RS is kept. -/
theorem storedByteIsFetchedNext : Obligations.StoredByteIsFetchedNext := by
  intro cfg s e ea hwf hfetch hk hea hin
  have hstep : stepWith cfg s = sta cfg (.ok ea) e.len (advance 1 s) := by
    rw [hfetch.stepWith_eq, execEntry_sta hk]
    exact congrArg (sta cfg · e.len (advance 1 s)) hea
  obtain ⟨hrun, -, -⟩ := hfetch
  rw [hstep, sta_inRange hin]
  refine ⟨?_, hrun⟩
  rw [memRead_inRange _ hin]
  exact congrArg Except.ok (read_write_same _ _ hwf)

end Sys2Proof.Machine
end

