-- ==== Sys2Proof/Proofs/Accesses.lean ====
section
/-! PROOFS. The accesses of a step (20_memory.md sections 1 and 6): the list as fetch, resolver reads and data
access, the resolver as a function of the bytes it reads, then two steps from memories that agree on the reads. -/

namespace Sys2Proof.Machine

/-! ### The list of accesses in its parts -/

/-- The accesses of the resolver: the operand bytes, then the pointer bytes (R71 to R80). -/
def resolverAccesses (m : Memory) (mode : Mode) (pc1 : Word) (x : Byte) : List Access :=
  operandReads mode pc1 ++ pointerReads m mode pc1 x

/-- The accesses up to the first out of range (R135). -/
def made (cfg : Config) (l : List Access) : List Access := l.takeWhile fun c => inRange cfg c.addr

section
variable {cfg : Config} {e : OpcodeEntry} {s : State}

theorem entryAccesses_lda (hk : e.kind = .lda) :
    entryAccesses cfg e s = resolverAccesses s.mem e.mode s.pc s.x ++ dataAccess cfg .read e s := by
  simp only [entryAccesses, hk, resolverAccesses]

theorem entryAccesses_sta (hk : e.kind = .sta) :
    entryAccesses cfg e s = resolverAccesses s.mem e.mode s.pc s.x ++ dataAccess cfg .write e s := by
  simp only [entryAccesses, hk, resolverAccesses]

theorem entryAccesses_implied (hk : e.kind = .tax ∨ e.kind = .tay ∨ e.kind = .inx ∨ e.kind = .brk) :
    entryAccesses cfg e s = [] := by
  obtain hk | hk | hk | hk := hk <;> simp only [entryAccesses, hk]

theorem dataAccess_ok {access : Word → Access} {a : Word}
    (hr : resolve cfg s.mem e.mode s.pc s.x s.y = .ok a) : dataAccess cfg access e s = [access a] := by
  simp only [dataAccess, hr]

theorem dataAccess_error {access : Word → Access} {f : Fault}
    (hr : resolve cfg s.mem e.mode s.pc s.x s.y = .error f) : dataAccess cfg access e s = [] := by
  simp only [dataAccess, hr]

theorem made_nil : made cfg [] = [] := rfl

theorem made_inRange {c : Access} (l : List Access) (h : inRange cfg c.addr = true) :
    made cfg (c :: l) = c :: made cfg l := by
  simp only [made, List.takeWhile_cons, h, if_true]

theorem made_outOfRange {c : Access} (l : List Access) (h : inRange cfg c.addr = false) :
    made cfg (c :: l) = [] := by
  simp [made, h]

/-- An address is given only after every read of the resolver was in range. -/
theorem resolverAccesses_inRange {m : Memory} {mode : Mode} {pc1 ea : Word} {x y : Byte}
    (hr : resolve cfg m mode pc1 x y = .ok ea) :
    ∀ c ∈ resolverAccesses m mode pc1 x, inRange cfg c.addr = true := by
  obtain ⟨rfl, -⟩ | ⟨hm, hp⟩ | ⟨hm, hp, hq⟩ := resolve_ok hr
  · exact nofun
  · cases mode <;> cases hm
    all_goals simp [resolverAccesses, operandReads, pointerReads, Access.addr, hp]
  · cases mode <;> cases hm
    all_goals simpa [resolverAccesses, operandReads, pointerReads, Access.addr] using ⟨hp, hq⟩

/-- The data access comes after the resolver's reads, and only when none of them faulted. -/
theorem made_resolver_data (access : Word → Access) :
    made cfg (resolverAccesses s.mem e.mode s.pc s.x ++ dataAccess cfg access e s) =
      made cfg (resolverAccesses s.mem e.mode s.pc s.x) ++ made cfg (dataAccess cfg access e s) := by
  cases hr : resolve cfg s.mem e.mode s.pc s.x s.y with
  | error f => rw [dataAccess_error hr, made, made, made, List.append_nil]; simp
  | ok a =>
    have hin := resolverAccesses_inRange hr
    rw [made, made, List.takeWhile_append_of_pos hin, List.takeWhile_eq_self_iff.mpr hin]; rfl

theorem made_dataAccess (cfg : Config) (access : Word → Access) (e : OpcodeEntry) (s : State) :
    made cfg (dataAccess cfg access e s) = [] ∨ ∃ a, made cfg (dataAccess cfg access e s) = [access a] := by
  cases hr : resolve cfg s.mem e.mode s.pc s.x s.y with
  | error f => exact .inl (by rw [dataAccess_error hr]; rfl)
  | ok a =>
    rw [dataAccess_ok hr]
    cases ha : inRange cfg (access a).addr
    · exact .inl (made_outOfRange _ ha)
    · exact .inr ⟨a, made_inRange _ ha⟩

theorem mem_of_mem_made {l : List Access} {c : Access} (h : c ∈ made cfg l) : c ∈ l :=
  (List.takeWhile_sublist _).subset h

theorem write_not_mem_resolver (m : Memory) (mode : Mode) (pc1 : Word) (x : Byte) (a : Word) :
    Access.write a ∉ made cfg (resolverAccesses m mode pc1 x) :=
  fun h => resolver_never_writes mode pc1 m x a (mem_of_mem_made h)

theorem stepAccesses_idle (h : s.rs ≠ .running) : stepAccesses cfg s = [] := by
  cases hrs : s.rs with
  | running => exact absurd hrs h
  | ready | halted | faulted => simp only [stepAccesses, hrs]

theorem stepAccesses_fetchFault (h : s.rs = .running) (hp : inRange cfg s.pc = false) : stepAccesses cfg s = [] := by
  simp only [stepAccesses, h]
  exact made_outOfRange _ hp

theorem stepAccesses_unimplemented (h : s.rs = .running) (hp : inRange cfg s.pc = true)
    (hl : lookup cfg.registry (s.mem.read s.pc.toNat) = none) : stepAccesses cfg s = [.read s.pc] := by
  simp only [stepAccesses, h, hl]
  exact made_inRange [] hp

theorem FetchesEntry.stepAccesses_eq (h : FetchesEntry cfg s e) :
    stepAccesses cfg s = .read s.pc :: made cfg (entryAccesses cfg e (advance 1 s)) := by
  obtain ⟨hrun, hpc, hl⟩ := h
  exact stepAccesses_entry hrun hpc hl

end

/-! ### The resolver depends only on the bytes it reads -/

/-- Two memories hold the same byte wherever the accesses read. -/
def AgreesOnReads (l : List Access) (m m' : Memory) : Prop :=
  ∀ a, Access.read a ∈ l → m'.read a.toNat = m.read a.toNat

section
variable {cfg : Config} {m m' : Memory} {pc1 : Word}

theorem withByteOperand_congr {k k' : Byte → Except Fault Word}
    (h : inRange cfg pc1 = true → k' (m'.read pc1.toNat) = k (m.read pc1.toNat)) :
    withByteOperand cfg m' pc1 k' = withByteOperand cfg m pc1 k := by
  cases hp : inRange cfg pc1
  · rw [withByteOperand_outOfRange m' k' hp, withByteOperand_outOfRange m k hp]
  · rw [withByteOperand_inRange m' k' hp, withByteOperand_inRange m k hp, h hp]

theorem AgreesOnReads.tail {c : Access} {l : List Access} (h : AgreesOnReads (c :: l) m m') :
    AgreesOnReads l m m' := fun a ha => h a (List.mem_cons_of_mem c ha)

theorem AgreesOnReads.head {a : Word} {l : List Access} (h : AgreesOnReads (.read a :: l) m m') :
    m'.read a.toNat = m.read a.toNat := h a (List.mem_cons_self ..)

theorem withWordOperand_congr {k : Word → Except Fault Word}
    (h : AgreesOnReads (made cfg [.read pc1, .read (pc1 + 1)]) m m') :
    withWordOperand cfg m' pc1 k = withWordOperand cfg m pc1 k := by
  cases hp : inRange cfg pc1
  · rw [withWordOperand_outOfRange m' k hp, withWordOperand_outOfRange m k hp]
  · cases hq : inRange cfg (pc1 + 1)
    · rw [withWordOperand_secondOutOfRange m' k hp hq, withWordOperand_secondOutOfRange m k hp hq]
    · rw [made_inRange _ hp, made_inRange _ hq] at h
      rw [withWordOperand_inRange m' k hp hq, withWordOperand_inRange m k hp hq, h.head, h.tail.head]

theorem readPointer_congr {ptr : Byte} (hlo : m'.read ptr.toNat = m.read ptr.toNat)
    (hhi : m'.read (ptr + 1).toNat = m.read (ptr + 1).toNat) :
    readPointer cfg m' ptr = readPointer cfg m ptr := by
  rw [readPointer_eq, readPointer_eq, hlo, hhi]

/-- The three reads of a mode with a pointer, at the place `g` makes of the operand byte (R78, R79). -/
def pointerModeReads (m : Memory) (pc1 : Word) (g : Byte → Byte) : List Access :=
  [.read pc1, .read (zext16 (g (m.read pc1.toNat))), .read (zext16 (g (m.read pc1.toNat) + 1))]

/-- Agreement at the operand byte is agreement on where the pointer is, and then on the pointer. -/
theorem pointerMode_congr {g : Byte → Byte} {k : Memory → Byte → Except Fault Word}
    (hk : ∀ d8, readPointer cfg m' (g d8) = readPointer cfg m (g d8) → k m' d8 = k m d8)
    (h : AgreesOnReads (made cfg (pointerModeReads m pc1 g)) m m') :
    withByteOperand cfg m' pc1 (k m') = withByteOperand cfg m pc1 (k m) ∧
      made cfg (pointerModeReads m' pc1 g) = made cfg (pointerModeReads m pc1 g) := by
  cases hp : inRange cfg pc1
  · exact ⟨withByteOperand_congr fun hin => absurd hin (by simp [hp]),
      (made_outOfRange _ hp).trans (made_outOfRange _ hp).symm⟩
  · rw [pointerModeReads, made_inRange _ hp, made_inRange _ (inRange_zext16 cfg _),
      made_inRange _ (inRange_zext16 cfg _)] at h
    have hop := h.head
    have hlo := h.tail.head
    have hhi := h.tail.tail.head
    rw [zext16_toNat] at hlo hhi
    refine ⟨withByteOperand_congr fun _ => ?_, ?_⟩
    · rw [hop, hk _ (readPointer_congr hlo hhi)]
    · rw [pointerModeReads, pointerModeReads, hop]

/-- The resolver answers the same and reads the same addresses where the memories agree on what it reads. -/
theorem resolve_congr {mode : Mode} {x y : Byte}
    (h : AgreesOnReads (made cfg (resolverAccesses m mode pc1 x)) m m') :
    resolve cfg m' mode pc1 x y = resolve cfg m mode pc1 x y ∧
      made cfg (resolverAccesses m' mode pc1 x) = made cfg (resolverAccesses m mode pc1 x) := by
  cases mode with
  | immediate | noneAddressing => exact ⟨rfl, rfl⟩
  | zeroPage | zeroPageX | zeroPageY =>
    refine ⟨withByteOperand_congr fun hp => ?_, rfl⟩
    have hop := (made_inRange (c := .read pc1) [] hp ▸ h).head
    rw [hop]
  | absolute | absoluteX | absoluteY => exact ⟨withWordOperand_congr h, rfl⟩
  | indirectX =>
    have same (d8 : Byte) (hptr : readPointer cfg m' (d8 + x) = readPointer cfg m (d8 + x)) :
        eaIndirectX cfg m' d8 x = eaIndirectX cfg m d8 x := hptr
    exact pointerMode_congr (k := fun m d8 => eaIndirectX cfg m d8 x) same h
  | indirectY =>
    have same (d8 : Byte) (hptr : readPointer cfg m' d8 = readPointer cfg m d8) :
        eaIndirectY cfg m' d8 y = eaIndirectY cfg m d8 y := by simp only [eaIndirectY, hptr]
    exact pointerMode_congr (g := fun d8 => d8) (k := fun m d8 => eaIndirectY cfg m d8 y) same h

end

/-! ### Two steps from memories that agree on the reads -/

/-- Two steps with the same accesses, from a state and from the state with another memory: the same registers and
run state, the same byte stored, and no other byte changed. -/
structure SameStep (l : List Access) (s : State) (m : Memory) (t u : State) : Prop where
  registers : u = t.setMem u.mem
  stored : ∀ a, Access.write a ∈ l → u.mem.read a.toNat = t.mem.read a.toNat
  others : ∀ b, (∀ a, Access.write a ∈ l → b ≠ a.toNat) → t.mem.read b = s.mem.read b ∧ u.mem.read b = m.read b

section
variable {cfg : Config} {e : OpcodeEntry} {s t : State} {m : Memory} {l : List Access}

theorem SameStep.of_noWrite (hl : ∀ a, Access.write a ∉ l) (ht : t.mem = s.mem) : SameStep l s m t (t.setMem m) :=
  ⟨rfl, fun a ha => absurd ha (hl a), fun b _ => ⟨by rw [ht], rfl⟩⟩

theorem SameStep.of_store {a : Word} {v : Byte} (hs : s.mem.wf = true) (hm : m.wf = true)
    (hl : ∀ b, Access.write b ∈ l ↔ b = a) (ht : t.mem = s.mem.write a.toNat v) :
    SameStep l s m t (t.setMem (m.write a.toNat v)) := by
  refine ⟨rfl, fun b hb => ?_, fun b hb => ?_⟩
  · obtain rfl := (hl b).1 hb
    rw [ht, setMem_mem, read_write_same _ _ hs, read_write_same _ _ hm]
  · have hne := hb a ((hl a).2 rfl)
    rw [ht, setMem_mem]
    exact ⟨read_write_other _ _ _ hne, read_write_other _ _ _ hne⟩

/-- LDA and STA ask for the resolver's reads and then one access to the address it gives. -/
theorem data_congr {access : Word → Access}
    (h : AgreesOnReads (made cfg (resolverAccesses s.mem e.mode s.pc s.x)) s.mem m) :
    resolve cfg m e.mode s.pc s.x s.y = resolve cfg s.mem e.mode s.pc s.x s.y ∧
    made cfg (resolverAccesses m e.mode s.pc s.x ++ dataAccess cfg access e (s.setMem m)) =
      made cfg (resolverAccesses s.mem e.mode s.pc s.x ++ dataAccess cfg access e s) := by
  obtain ⟨hres, hreads⟩ := resolve_congr (y := s.y) h
  have hdata : dataAccess cfg access e (s.setMem m) = dataAccess cfg access e s := by
    rw [dataAccess, dataAccess, ← hres]; rfl
  refine ⟨hres, ?_⟩
  rw [made_resolver_data, ← hreads, ← hdata]
  exact made_resolver_data (s := s.setMem m) access

theorem AgreesOnReads.left {l' : List Access} {m m' : Memory} (h : AgreesOnReads (l ++ l') m m') :
    AgreesOnReads l m m' := fun a ha => h a (List.mem_append_left _ ha)

theorem AgreesOnReads.right {l' : List Access} {m m' : Memory} (h : AgreesOnReads (l ++ l') m m') :
    AgreesOnReads l' m m' := fun a ha => h a (List.mem_append_right _ ha)

theorem write_not_mem_made_lda (hk : e.kind = .lda) (a : Word) :
    Access.write a ∉ made cfg (entryAccesses cfg e s) := by
  rw [entryAccesses_lda hk, made_resolver_data, List.mem_append]
  rintro (h | h)
  · exact write_not_mem_resolver _ _ _ _ _ h
  · obtain hnil | ⟨b, hone⟩ := made_dataAccess cfg .read e s
    · rw [hnil] at h; cases h
    · rw [hone, List.mem_singleton] at h; cases h

/-- The accesses of STA: the resolver's reads, then the data access if there is one. -/
theorem made_sta (hk : e.kind = .sta) :
    made cfg (entryAccesses cfg e s) = made cfg (resolverAccesses s.mem e.mode s.pc s.x) ++
      made cfg (dataAccess cfg .write e s) := by
  rw [entryAccesses_sta hk, made_resolver_data]

theorem load_sameStep (hk : e.kind = .lda) (h : AgreesOnReads (made cfg (entryAccesses cfg e s)) s.mem m) :
    made cfg (entryAccesses cfg e (s.setMem m)) = made cfg (entryAccesses cfg e s) ∧
      SameStep (made cfg (entryAccesses cfg e s)) s m (execEntry cfg e s) (execEntry cfg e (s.setMem m)) := by
  have hsplit := h
  rw [entryAccesses_lda hk, made_resolver_data] at hsplit
  obtain ⟨hres, hacc⟩ := data_congr (access := .read) hsplit.left
  refine ⟨by rw [entryAccesses_lda hk, entryAccesses_lda hk]; exact hacc, ?step⟩
  have noWrite := write_not_mem_made_lda (cfg := cfg) (s := s) hk
  have hu : execEntry cfg e (s.setMem m) =
      lda cfg (resolve cfg s.mem e.mode s.pc s.x s.y) e.len (s.setMem m) := by rw [execEntry_lda hk, ← hres]; rfl
  case step =>
    rw [hu, execEntry_lda hk]
    cases hr : resolve cfg s.mem e.mode s.pc s.x s.y with
    | error f => exact .of_noWrite noWrite rfl
    | ok a =>
      cases ha : inRange cfg a
      · rw [lda_outOfRange ha, lda_outOfRange ha]; exact .of_noWrite noWrite rfl
      · have hdata := hsplit.right
        rw [dataAccess_ok hr, made_inRange _ ha] at hdata
        rw [lda_inRange ha, lda_inRange ha, setMem_mem, hdata.head]
        exact .of_noWrite noWrite rfl

theorem store_sameStep (hk : e.kind = .sta) (hs : s.mem.wf = true) (hm : m.wf = true)
    (h : AgreesOnReads (made cfg (entryAccesses cfg e s)) s.mem m) :
    made cfg (entryAccesses cfg e (s.setMem m)) = made cfg (entryAccesses cfg e s) ∧
      SameStep (made cfg (entryAccesses cfg e s)) s m (execEntry cfg e s) (execEntry cfg e (s.setMem m)) := by
  rw [made_sta hk] at h
  obtain ⟨hres, hacc⟩ := data_congr (access := .write) h.left
  refine ⟨by rw [entryAccesses_sta hk, entryAccesses_sta hk]; exact hacc, ?step⟩
  have hu : execEntry cfg e (s.setMem m) =
      sta cfg (resolve cfg s.mem e.mode s.pc s.x s.y) e.len (s.setMem m) := by rw [execEntry_sta hk, ← hres]; rfl
  have resolverWrites (b : Word) := write_not_mem_resolver (cfg := cfg) s.mem e.mode s.pc s.x b
  case step =>
    rw [hu, execEntry_sta hk, made_sta hk]
    cases hr : resolve cfg s.mem e.mode s.pc s.x s.y with
    | error f =>
      rw [dataAccess_error hr, made_nil, List.append_nil]
      exact .of_noWrite resolverWrites rfl
    | ok a =>
      rw [dataAccess_ok hr]
      cases ha : inRange cfg a
      · rw [sta_outOfRange ha, sta_outOfRange ha, made_outOfRange _ ha, List.append_nil]
        exact .of_noWrite resolverWrites rfl
      · rw [sta_inRange ha, sta_inRange ha, made_inRange _ ha, made_nil]
        exact .of_store hs hm (by simp [resolverWrites]) rfl

end

section
variable {cfg : Config} {e : OpcodeEntry} {s : State} {m : Memory}

theorem implied_sameStep (hk : e.kind = .tax ∨ e.kind = .tay ∨ e.kind = .inx ∨ e.kind = .brk) :
    SameStep [] s m (execEntry cfg e s) (execEntry cfg e (s.setMem m)) := by
  have noWrite (a : Word) : Access.write a ∉ [] := List.not_mem_nil
  obtain hk | hk | hk | hk := hk
  · rw [execEntry_tax hk, execEntry_tax hk]; exact .of_noWrite noWrite rfl
  · rw [execEntry_tay hk, execEntry_tay hk, tay_eq, tay_eq]; exact .of_noWrite noWrite rfl
  · rw [execEntry_inx hk, execEntry_inx hk]; exact .of_noWrite noWrite rfl
  · rw [execEntry_brk hk, execEntry_brk hk]; exact .of_noWrite noWrite rfl

theorem entry_sameStep (hs : s.mem.wf = true) (hm : m.wf = true)
    (h : AgreesOnReads (made cfg (entryAccesses cfg e s)) s.mem m) :
    made cfg (entryAccesses cfg e (s.setMem m)) = made cfg (entryAccesses cfg e s) ∧
      SameStep (made cfg (entryAccesses cfg e s)) s m (execEntry cfg e s) (execEntry cfg e (s.setMem m)) := by
  obtain (hk | hk) | hk := kind_data_or_implied e.kind
  · exact load_sameStep hk h
  · exact store_sameStep hk hs hm h
  · rw [entryAccesses_implied hk, entryAccesses_implied hk]
    exact ⟨rfl, implied_sameStep hk⟩

theorem SameStep.cons_read {t u : State} {l : List Access} {a : Word} (h : SameStep l s m t u) :
    SameStep (.read a :: l) s m t u := by
  have writes (b : Word) : Access.write b ∈ Access.read a :: l ↔ Access.write b ∈ l := by simp
  obtain ⟨hregs, hstored, hothers⟩ := h
  exact ⟨hregs, fun b hb => hstored b ((writes b).1 hb), fun b hb => hothers b fun c hc => hb c ((writes c).2 hc)⟩

/-- The fetch is a read, so the two states find the same entry; past the opcode byte they are the same but for
their memories. -/
theorem step_sameStep (hs : s.mem.wf = true) (hm : m.wf = true) (h : AgreesOnReads (stepAccesses cfg s) s.mem m) :
    stepAccesses cfg (s.setMem m) = stepAccesses cfg s ∧
      SameStep (stepAccesses cfg s) s m (stepWith cfg s) (stepWith cfg (s.setMem m)) := by
  by_cases hrun : s.rs = .running
  · cases hp : inRange cfg s.pc
    · rw [stepAccesses_fetchFault hrun hp, stepWith_fetchFault hrun hp]
      have hu : stepWith cfg (s.setMem m) = raise (.memoryOutOfRange s.pc) (s.setMem m) := stepWith_fetchFault hrun hp
      rw [hu]
      exact ⟨stepAccesses_fetchFault hrun hp, .of_noWrite (fun _ => List.not_mem_nil) rfl⟩
    · cases hl : lookup cfg.registry (s.mem.read s.pc.toNat) with
      | none =>
        rw [stepAccesses_unimplemented hrun hp hl] at h ⊢
        have hl' : lookup cfg.registry (m.read s.pc.toNat) = none := h.head ▸ hl
        refine ⟨stepAccesses_unimplemented hrun hp hl', ?_⟩
        have hu : stepWith cfg (s.setMem m) = raise (.unimplementedOpcode (m.read s.pc.toNat)) (s.setMem m) :=
          stepWith_unimplemented hrun hp hl'
        rw [stepWith_unimplemented hrun hp hl, hu, h.head]
        exact .of_noWrite (by simp) rfl
      | some e =>
        have hfetch : FetchesEntry cfg s e := ⟨hrun, hp, hl⟩
        rw [hfetch.stepAccesses_eq] at h ⊢
        have hfetch' : FetchesEntry cfg (s.setMem m) e := ⟨hrun, hp, h.head ▸ hl⟩
        rw [hfetch.stepWith_eq, hfetch'.stepWith_eq, hfetch'.stepAccesses_eq]
        obtain ⟨hacc, hstep⟩ := entry_sameStep (s := advance 1 s) hs hm h.tail
        exact ⟨congrArg (Access.read s.pc :: ·) hacc, .cons_read ⟨hstep.1, hstep.2, hstep.3⟩⟩
  · rw [stepAccesses_idle hrun, stepWith_idle hrun]
    have hu : stepWith cfg (s.setMem m) = s.setMem m := stepWith_idle hrun
    rw [hu]
    exact ⟨stepAccesses_idle hrun, .of_noWrite (fun _ => List.not_mem_nil) rfl⟩

end

/-! ### The obligations -/

/-- Settles O38: past the fetch the resolver only reads, and the one data access comes after its reads. -/
theorem accessesOfEachKind : Obligations.AccessesOfEachKind := by
  intro cfg s e hfetch
  rw [hfetch.stepAccesses_eq]
  refine ⟨fun hk => ?implied, fun hk a ha => ?lda, fun hk a ha => ?sta⟩
  case implied => rw [entryAccesses_implied hk, made_nil]
  case lda =>
    obtain h | h := List.mem_cons.mp ha
    · cases h
    · exact write_not_mem_made_lda hk a h
  case sta =>
    rw [made_sta hk] at ha ⊢
    have hreads (b : Word) : Access.write b ∉ Access.read s.pc ::
        made cfg (resolverAccesses (advance 1 s).mem e.mode (advance 1 s).pc (advance 1 s).x) := by
      simp [write_not_mem_resolver]
    have hmem := (List.mem_append.mp ha).resolve_left (hreads a)
    obtain hnil | ⟨b, hone⟩ := made_dataAccess cfg .write e (advance 1 s)
    · rw [hnil] at hmem; cases hmem
    · rw [hone] at hmem ⊢
      cases List.mem_singleton.mp hmem
      exact ⟨_, rfl, hreads⟩

/-- Settles O39: the fetch, the resolver and the data access each depend on the bytes read, and a store writes A
whatever stood there. -/
theorem stepDependsOnlyOnItsReads : Obligations.StepDependsOnlyOnItsReads := by
  intro cfg s m hs hm h t u
  obtain ⟨hacc, hregs, hstored, hothers⟩ := step_sameStep hs hm h
  have hu : u = t.setMem u.mem := hregs
  exact ⟨hacc, (congrArg State.a hu).trans rfl, (congrArg State.x hu).trans rfl, (congrArg State.y hu).trans rfl,
    (congrArg State.p hu).trans rfl, (congrArg State.pc hu).trans rfl, (congrArg State.rs hu).trans rfl,
    hstored, hothers⟩

end Sys2Proof.Machine
end

