-- ==== Sys2Proof/Proofs/Runs.lean ====
section
/-! PROOFS. The obligations about runs (41_executor.md sections 4 and 5, 70_reset_and_hazards.md section 3): the
reply and the run state of a run, runs in parts, the run that must end and the run that never does. -/

namespace Sys2Proof.Machine

section
variable {cfg : Config} {s t : State} {r : Reply} {n : Nat}

/-! ### What a run reports and leaves -/

theorem hostRun_reply (cfg : Config) (n : Nat) (s : State) :
    (hostRun cfg n s).2 =
      if (hostRun cfg n s).1.rs = .running then .budgetExhausted else report (hostRun cfg n s).1.rs := by
  induction n generalizing s with
  | zero => rfl
  | succ n ih =>
    by_cases hs : s.rs = .running
    · rw [hostRun_succ cfg n hs]; exact ih _
    · rw [hostRun_idle cfg _ hs, if_neg hs]

theorem hostRun_ne_ready (cfg : Config) (n : Nat) {s : State} (h : s.rs ≠ .ready) :
    (hostRun cfg n s).1.rs ≠ .ready := by
  induction n generalizing s with
  | zero => exact h
  | succ n ih =>
    by_cases hs : s.rs = .running
    · obtain ⟨-, hready⟩ := onlyHaltInstructionHalts cfg s hs
      rw [hostRun_succ cfg n hs]; exact ih hready
    · rw [hostRun_idle cfg _ hs]; exact h

theorem ne_ready_of_running (h : s.rs = .running) : s.rs ≠ .ready := by rw [h]; exact nofun

theorem hostRun_add (cfg : Config) (m n : Nat) (s : State) :
    hostRun cfg (m + n) s = hostRun cfg n (hostRun cfg m s).1 := by
  induction m generalizing s with
  | zero => rw [Nat.zero_add, hostRun]
  | succ m ih =>
    by_cases hs : s.rs = .running
    · rw [Nat.add_right_comm, hostRun_succ cfg _ hs, hostRun_succ cfg _ hs, ih]
    · rw [hostRun_idle cfg _ hs, hostRun_idle cfg _ hs, hostRun_idle cfg _ hs]

/-! ### Runs without a budget -/

theorem RunEnds.idle (h : RunEnds cfg s t r) (hs : s.rs ≠ .running) : t = s ∧ r = report s.rs := by
  obtain ⟨n, hn, -⟩ := h
  rw [hostRun_idle cfg n hs] at hn
  cases hn; exact ⟨rfl, rfl⟩

/-- A run that ended is no longer Running, and reports so. -/
theorem RunEnds.reply (h : RunEnds cfg s t r) : t.rs ≠ .running ∧ r = report t.rs := by
  obtain ⟨n, hn, hr⟩ := h
  have hreply := hostRun_reply cfg n s
  rw [hn] at hreply
  by_cases ht : t.rs = .running
  · rw [if_pos ht] at hreply; exact absurd hreply hr
  · rw [if_neg ht] at hreply; exact ⟨ht, hreply⟩

theorem RunEnds.ne_ready (h : RunEnds cfg s t r) (hs : s.rs = .running) : t.rs ≠ .ready := by
  obtain ⟨n, hn, -⟩ := h
  have hready := hostRun_ne_ready cfg n (ne_ready_of_running hs)
  rwa [hn] at hready

theorem RunEnds.eventually (h : RunEnds cfg s t r) : ∃ n, ∀ k, n ≤ k → hostRun cfg k s = (t, r) := by
  obtain ⟨n, hn, hr⟩ := h
  refine ⟨n, fun k hk => ?_⟩
  rw [← Nat.add_sub_cancel' hk]
  exact hostRun_ended hn hr _

theorem RunEnds.unique {t' : State} {r' : Reply} (h : RunEnds cfg s t r) (h' : RunEnds cfg s t' r') :
    t = t' ∧ r = r' := by
  obtain ⟨n, hn⟩ := h.eventually
  obtain ⟨n', hn'⟩ := h'.eventually
  have heq := (hn (max n n') (le_max_left ..)).symm.trans (hn' (max n n') (le_max_right ..))
  exact Prod.mk.inj heq

theorem runEnds_of_not_running (h : (hostRun cfg n s).1.rs ≠ .running) :
    hostRun cfg n s = ((hostRun cfg n s).1, report (hostRun cfg n s).1.rs) ∧
      RunEnds cfg s (hostRun cfg n s).1 (report (hostRun cfg n s).1.rs) := by
  have hreply := hostRun_reply cfg n s
  rw [if_neg h] at hreply
  have heq : hostRun cfg n s = ((hostRun cfg n s).1, report (hostRun cfg n s).1.rs) := Prod.ext rfl hreply
  exact ⟨heq, n, heq, report_ne_budgetExhausted _⟩

theorem halted_or_faulted {rs : RunState} (hready : rs ≠ .ready) (hrun : rs ≠ .running) :
    rs = .halted ∨ ∃ f, rs = .faulted f := by
  cases rs with
  | ready => exact absurd rfl hready
  | running => exact absurd rfl hrun
  | halted => exact .inl rfl
  | faulted f => exact .inr ⟨f, rfl⟩

/-- With the observed memory PC rises with every step that leaves the CORE Running, and it has at most
`0x10000 - PC` values left to take. -/
theorem hostRun_not_running (hobs : cfg.memSize = .observed) (hwf : Registry.wf cfg.registry = true)
    (hrun : s.rs = .running) (hn : 0x10000 - s.pc.toNat ≤ n) : (hostRun cfg n s).1.rs ≠ .running := by
  induction n generalizing s with
  | zero =>
    have := s.pc.isLt
    omega
  | succ n ih =>
    rw [hostRun_succ cfg n hrun]
    by_cases hrun' : (stepWith cfg s).rs = .running
    · have hup := forwardProgressWithoutWrap cfg s hobs hwf hrun (by rw [hrun']; exact nofun)
      exact ih hrun' (by omega)
    · rw [hostRun_idle cfg n hrun']; exact hrun'

end

/-! ### A memory full of INX -/

theorem stepWith_inx {s : State} (hrun : s.rs = .running) (hbyte : s.mem.read s.pc.toNat = 0xE8) :
    stepWith cfgFullMemory s = inx (advance 1 s) := by
  have hin : inRange cfgFullMemory s.pc = true := (inRange_iff _ _).2 s.pc.isLt
  have hl : lookup cfgFullMemory.registry (s.mem.read s.pc.toNat) = some ⟨.inx, .one, 2, .noneAddressing⟩ := by
    rw [hbyte]; rfl
  rw [stepWith_entry hrun hin hl]
  exact execEntry_inx rfl

/-- After any number of steps the CORE is still Running, with PC and X that many further. -/
theorem hostRun_inx (n : Nat) {s : State} (hrun : s.rs = .running)
    (hfull : ∀ a, a < 0x10000 → s.mem.read a = 0xE8) :
    ∃ t, hostRun cfgFullMemory n s = (t, .budgetExhausted) ∧
      t.pc.toNat = (s.pc.toNat + n) % 0x10000 ∧ t.x.toNat = (s.x.toNat + n) % 256 ∧ t.mem = s.mem := by
  induction n generalizing s with
  | zero =>
    refine ⟨s, by rw [hostRun, if_pos hrun], ?_, ?_, rfl⟩
    · exact (Nat.mod_eq_of_lt s.pc.isLt).symm
    · exact (Nat.mod_eq_of_lt s.x.isLt).symm
  | succ n ih =>
    obtain ⟨t, ht, hpc, hx, hmem⟩ := ih (s := inx (advance 1 s)) hrun hfull
    refine ⟨t, ?_, ?_, ?_, hmem⟩
    · rw [hostRun_succ _ _ hrun, stepWith_inx hrun (hfull _ s.pc.isLt), ht]
    · rw [hpc, inx_pc, advance_pc, succ_toNat]; omega
    · rw [hx, inx_x, advance_x, byteSucc_toNat]; omega

/-! ### The host's own run -/

theorem coreRun_succ {M : Host.Core} {s t : M.State} (n : Nat) (h : M.step s = .next t) :
    M.run (n + 1) s = M.run n t := by
  rw [Host.Core.run, h]

/-! ### The obligations -/

/-- Settles O40: the reply is read off the run state left; outside Running nothing runs, and no step makes the
CORE Ready. -/
theorem runReplyTellsRunState : Obligations.RunReplyTellsRunState := by
  intro cfg n s t r h
  refine ⟨?reply, fun hs => ?idle, fun hs => ?ready⟩
  case reply =>
    have hreply := hostRun_reply cfg n s
    rw [h] at hreply
    cases ht : t.rs <;> simpa [ht, report] using hreply
  case idle =>
    rw [hostRun_idle cfg n hs] at h
    cases h; rfl
  case ready =>
    have hready := hostRun_ne_ready cfg n (ne_ready_of_running hs)
    rwa [h] at hready

/-- Settles O41: budgets add, and a run that ended gives the same end under every larger budget. -/
theorem runBudgetsCompose : Obligations.RunBudgetsCompose := by
  intro cfg s
  refine ⟨fun m n => hostRun_add cfg m n s, fun t r h => ?ends, fun t r t' r' h h' => h.unique h'⟩
  case ends =>
    obtain ⟨hrs, hr⟩ := h.reply
    exact ⟨hr, hrs, h.ne_ready, fun hs => (h.idle hs).1, h.eventually⟩

/-- Settles O42: PC rises with each step, so the run is over before PC could pass 0xFFFF. -/
theorem everyRunEndsWithObservedMemory : Obligations.EveryRunEndsWithObservedMemory := by
  intro cfg s hobs hwf hrun
  have hend := hostRun_not_running hobs hwf hrun le_rfl
  have hready := hostRun_ne_ready cfg (0x10000 - s.pc.toNat) (ne_ready_of_running hrun)
  obtain ⟨heq, hends⟩ := runEnds_of_not_running hend
  exact ⟨_, halted_or_faulted hready hend, heq, hends⟩

/-- Settles O43: every budget is exhausted, so no run without one ends. -/
theorem fullMemoryRunMayNeverEnd : Obligations.FullMemoryRunMayNeverEnd := by
  intro s hrun hfull
  refine ⟨fun n => hostRun_inx n hrun hfull, fun t r ⟨n, hn, hr⟩ => ?noEnd⟩
  case noEnd =>
    obtain ⟨u, hu, -⟩ := hostRun_inx n hrun hfull
    exact hr (Prod.mk.inj (hn.symm.trans hu)).2

/-- Settles O44: the core's step is the executor's, and outside Running both stand still. -/
theorem coreRunIsHostRun : Obligations.CoreRunIsHostRun := by
  intro n s
  induction n generalizing s with
  | zero => rfl
  | succ n ih =>
    have hstep : core.step s = .next (stepWith cfgObserved s) := stepFollowsExecutorPseudocode s
    refine (coreRun_succ n hstep).trans ((ih _).trans ?_)
    by_cases hs : s.rs = .running
    · rw [hostRun_succ _ n hs]
    · rw [stepWith_idle hs, hostRun_idle _ _ hs, hostRun_idle _ _ hs]

end Sys2Proof.Machine
end

