-- ==== Sys2Proof/Proofs/Memory.lean ====
section
/-! PROOFS. The obligations of 20_memory.md sections 1 to 3: the byte access, the word access by the range of its
two bytes, and the canonical form as a normal form. -/

namespace Sys2Proof.Machine

/-! ### The word write -/

section
variable {cfg : Config} {a : Word} (m : Memory) (w : Word)

theorem memWrite16_inRange (h : inRange cfg a = true) (h' : inRange cfg (a + 1) = true) :
    memWrite16 cfg m a w = .ok ((m.write a.toNat (loByte w)).write (a + 1).toNat (hiByte w)) := by
  simp only [memWrite16, memWrite_inRange _ _ h, memWrite_inRange _ _ h']

/-- The low byte is written before the second address is found out of range (R36). -/
theorem memWrite16_secondOutOfRange (h : inRange cfg a = true) (h' : inRange cfg (a + 1) = false) :
    memWrite16 cfg m a w = .error (.memoryOutOfRange (a + 1), m.write a.toNat (loByte w)) := by
  simp only [memWrite16, memWrite_inRange _ _ h, memWrite_outOfRange _ _ h']

theorem memWrite16_outOfRange (h : inRange cfg a = false) :
    memWrite16 cfg m a w = .error (.memoryOutOfRange a, m) := by
  simp only [memWrite16, memWrite_outOfRange _ _ h]

end

/-! ### Canonical memories -/

section
variable {m m' : Memory} {lo lo' b b' : Nat} {v v' : Byte}

theorem wfFrom_cons_iff : Memory.wfFrom lo ((b, v) :: m) = true ↔ lo ≤ b ∧ v ≠ 0 ∧ Memory.wfFrom (b + 1) m = true := by
  simp only [Memory.wfFrom, Bool.and_eq_true, decide_eq_true_eq, and_assoc]; rfl

theorem read_head (b : Nat) (v : Byte) (m : Memory) : Memory.read ((b, v) :: m) b = v := by
  rw [read_listed, if_pos rfl]

/-- A listed byte is not 0, and below its least address a list reads 0; so the least addresses agree. -/
theorem head_not_lt (h : Memory.wfFrom lo ((b, v) :: m) = true) (h' : Memory.wfFrom lo' ((b', v') :: m') = true)
    (hread : ∀ a, Memory.read ((b, v) :: m) a = Memory.read ((b', v') :: m') a) : ¬ b < b' := by
  intro hlt
  obtain ⟨-, hv, -⟩ := wfFrom_cons_iff.1 h
  obtain ⟨-, hv', hm'⟩ := wfFrom_cons_iff.1 h'
  have hzero : Memory.read ((b', v') :: m') b = 0 :=
    read_below_of_wfFrom (wfFrom_cons_iff.2 ⟨le_rfl, hv', hm'⟩) hlt
  exact hv (by rw [← read_head b v m, hread, hzero])

/-- Behind equal heads the tails read the same: 0 up to the head's address, and the whole lists' bytes past it. -/
theorem tail_read_eq (h : Memory.wfFrom (b + 1) m = true) (h' : Memory.wfFrom (b + 1) m' = true)
    (hread : ∀ a, Memory.read ((b, v) :: m) a = Memory.read ((b, v) :: m') a) (a : Nat) : m.read a = m'.read a := by
  by_cases ha : b = a
  · rw [read_below_of_wfFrom h (by omega), read_below_of_wfFrom h' (by omega)]
  · simpa only [read_listed, if_neg ha] using hread a

theorem eq_of_wfFrom (h : Memory.wfFrom lo m = true) (h' : Memory.wfFrom lo m' = true)
    (hread : ∀ a, m.read a = m'.read a) : m = m' := by
  induction m generalizing lo m' with
  | nil =>
    obtain _ | ⟨⟨b, v⟩, m'⟩ := m'
    · rfl
    · obtain ⟨-, hv, -⟩ := wfFrom_cons_iff.1 h'
      exact absurd ((hread b).trans (read_head b v m')).symm hv
  | cons c m ih =>
    obtain ⟨b, v⟩ := c
    obtain ⟨-, hv, hm⟩ := wfFrom_cons_iff.1 h
    obtain _ | ⟨⟨b', v'⟩, m'⟩ := m'
    · exact absurd ((read_head b v m).symm.trans (hread b)) hv
    · obtain ⟨-, -, hm'⟩ := wfFrom_cons_iff.1 h'
      have hle := head_not_lt h h' hread
      have hge := head_not_lt h' h fun a => (hread a).symm
      obtain rfl : b = b' := by omega
      obtain rfl : v = v' := by rw [← read_head b v m, hread, read_head]
      rw [ih hm hm' (tail_read_eq hm hm' hread)]

end

/-! ### The obligations -/

/-- Settles O2: the range check decides between the access to the list and the fault. -/
theorem byteAccessIsRangeChecked : Obligations.ByteAccessIsRangeChecked := by
  intro cfg m a v hwf
  refine ⟨fun hlt => ?inside, fun hge => ?outside⟩
  case inside =>
    have h : inRange cfg a = true := (inRange_iff cfg a).2 hlt
    exact ⟨memRead_inRange m h, _, memWrite_inRange m v h, read_write_same _ _ hwf,
      fun b hb => read_write_other _ _ _ hb⟩
  case outside =>
    have h : inRange cfg a = false := by rw [← Bool.not_eq_true, inRange_iff]; omega
    exact ⟨memRead_outOfRange m h, memWrite_outOfRange m v h⟩

/-- Settles O3: the three cases by which of the two bytes is in range; the two addresses always differ, so neither
write hides the other. -/
theorem wordAccessIsLittleEndian : Obligations.WordAccessIsLittleEndian := by
  intro cfg m a w hwf
  have hne := succ_toNat_ne a
  refine ⟨fun h h' => ?both, fun h h' => ?lowOnly, fun h => ?none⟩
  case both =>
    have hlo : ((m.write a.toNat (loByte w)).write (a + 1).toNat (hiByte w)).read a.toNat = loByte w := by
      rw [read_write_other _ _ _ hne.symm, read_write_same _ _ hwf]
    have hhi : ((m.write a.toNat (loByte w)).write (a + 1).toNat (hiByte w)).read (a + 1).toNat = hiByte w :=
      read_write_same _ _ (write_wf hwf)
    refine ⟨_, memWrite16_inRange m w h h', ?_, ?_, fun b hb hb' => ?_, ?_⟩
    · rw [hlo, loByte_toNat]
    · rw [hhi, hiByte_toNat]
    · rw [read_write_other _ _ _ hb', read_write_other _ _ _ hb]
    · rw [memRead16_inRange _ h h', hlo, hhi, joinBytes_hi_lo]
  case lowOnly =>
    refine ⟨memRead16_secondOutOfRange m h h', _, memWrite16_secondOutOfRange m w h h', ?_,
      fun b hb => read_write_other _ _ _ hb⟩
    rw [read_write_same _ _ hwf, loByte_toNat]
  case none => exact ⟨memRead16_outOfRange m h, memWrite16_outOfRange m w h⟩

/-- Settles O4: two canonical lists with the same bytes have the same head, by their least address that is not 0,
and then the same tail. -/
theorem canonicalMemoriesAreEqual : Obligations.CanonicalMemoriesAreEqual := by
  intro m m' h h' hread
  exact eq_of_wfFrom h h' hread

end Sys2Proof.Machine
end

