-- ==== Sys2Proof/Proofs/HostCommands.lean ====
section
/-! PROOFS. The obligations of 10_state.md section 6 and 70_reset_and_hazards.md sections 3 and 4: reset, load,
read and write, load_and_run, then the table of the commands. -/

namespace Sys2Proof.Machine

/-! ### The memory after load -/

section
variable {cfg : Config} {bytes : List Byte} {m : Memory}

/-- The vector's bytes win over the program's, and the program's over what was there (R152, D11). -/
theorem read_loadMemory (cfg : Config) (bytes : List Byte) (hwf : m.wf = true) (c : Nat) :
    (loadMemory cfg bytes m).read c =
      if c = 0xFFFD then 0x80 else if c = 0xFFFC then 0x00 else (m.writeBytes 0x8000 bytes).read c := by
  rw [loadMemory_eq, read_write _ _ _ (write_wf (writeBytes_wf hwf)), read_write _ _ _ (writeBytes_wf hwf)]

theorem read_loadMemory_program (hwf : m.wf = true) {k : Nat} (hk : k < bytes.length) (hC : 0x8000 + k ≠ 0xFFFC)
    (hD : 0x8000 + k ≠ 0xFFFD) : (loadMemory cfg bytes m).read (0x8000 + k) = bytes[k] := by
  rw [read_loadMemory cfg bytes hwf, if_neg hD, if_neg hC, read_writeBytes _ _ _ hwf, dif_pos (by omega)]
  simp only [Nat.add_sub_cancel_left]

theorem read_loadMemory_other (hwf : m.wf = true) {b : Nat} (hC : b ≠ 0xFFFC) (hD : b ≠ 0xFFFD)
    (hb : b < 0x8000 ∨ 0x8000 + bytes.length ≤ b) : (loadMemory cfg bytes m).read b = m.read b := by
  rw [read_loadMemory cfg bytes hwf, if_neg hD, if_neg hC, read_writeBytes _ _ _ hwf, dif_neg (by omega)]

theorem loadMemory_loadMemory (hwf : m.wf = true) :
    loadMemory cfg bytes (loadMemory cfg bytes m) = loadMemory cfg bytes m := by
  have hwf' : (loadMemory cfg bytes m).wf = true := loadMemory_wf cfg bytes hwf
  refine canonicalMemoriesAreEqual _ _ (loadMemory_wf cfg bytes hwf') hwf' fun c => ?_
  rw [read_loadMemory cfg bytes hwf', read_writeBytes _ _ _ hwf', read_loadMemory cfg bytes hwf,
    read_writeBytes _ _ _ hwf]
  split_ifs <;> rfl

end

/-! ### load_and_run -/

section
variable {cfg : Config} {bytes : List Byte} {s t : State} {r : Reply}

theorem loadAndRunEnds_iff_of_fits (h : 0x8000 + bytes.length ≤ cfg.memSize.bytes) :
    LoadAndRunEnds cfg bytes s t r ↔ RunEnds cfg (hostReset cfg (hostLoad cfg bytes s).1) t r := by
  simp only [LoadAndRunEnds, hostLoadAndReset, hostLoad_fits s h]

theorem loadAndRunEnds_iff_of_long (h : cfg.memSize.bytes < 0x8000 + bytes.length) :
    LoadAndRunEnds cfg bytes s t r ↔ t = s ∧ r = .loadTooLong := by
  simp only [LoadAndRunEnds, hostLoadAndReset_long h]

/-- The state from which load_and_run runs (R155). -/
theorem loadAndRunEnds_iff_of_wf (hwf : s.mem.wf = true) (h : 0x8000 + bytes.length ≤ cfg.memSize.bytes) :
    LoadAndRunEnds cfg bytes s t r ↔
      RunEnds cfg { a := 0, x := 0, y := s.y, p := 0, pc := 0x8000, rs := .running,
                    mem := (hostLoad cfg bytes s).1.mem } t r := by
  simp only [LoadAndRunEnds, hostLoadAndReset_fits hwf h, hostLoad_fits s h]

theorem hostReset_running (cfg : Config) (s : State) : (hostReset cfg s).rs = .running := by rw [hostReset_eq]

/-- A run without a budget from Running ends Halted or Faulted, and says so. -/
theorem RunEnds.halted_or_faulted_reply (h : RunEnds cfg s t r) (hs : s.rs = .running) :
    r = .halted ∨ ∃ f, r = .faulted f := by
  obtain ⟨hrun, rfl⟩ := h.reply
  obtain ht | ⟨f, ht⟩ := halted_or_faulted (h.ne_ready hs) hrun
  · exact .inl (by rw [ht]; rfl)
  · exact .inr ⟨f, by rw [ht]; rfl⟩

end

/-! ### What each command does -/

section
variable {cfg : Config} {c : Command} {s t : State} {r : Reply}

theorem LoadAndRunEnds.unique {bytes : List Byte} {t' : State} {r' : Reply}
    (h : LoadAndRunEnds cfg bytes s t r) (h' : LoadAndRunEnds cfg bytes s t' r') : t' = t ∧ r' = r := by
  obtain hlong | hfits := Nat.lt_or_ge cfg.memSize.bytes (0x8000 + bytes.length)
  · rw [loadAndRunEnds_iff_of_long hlong] at h h'
    obtain ⟨rfl, rfl⟩ := h
    exact h'
  · rw [loadAndRunEnds_iff_of_fits hfits] at h h'
    exact h'.unique h

/-- Every command but the two without a budget is a function of the state. -/
theorem CommandEnds.unique {t' : State} {r' : Reply} (h : CommandEnds cfg c s t r)
    (h' : CommandEnds cfg c s t' r') : t' = t ∧ r' = r := by
  cases c with
  | load | step | read | write => exact Prod.mk.inj (h'.symm.trans h)
  | reset =>
    obtain ⟨rfl, rfl⟩ := h
    exact ⟨h'.1.symm, h'.2⟩
  | run budget =>
    cases budget with
    | none => exact RunEnds.unique h' h
    | some n => exact Prod.mk.inj (h'.symm.trans h)
  | loadAndRun => exact LoadAndRunEnds.unique h h'

theorem commandEnds_step_or_run_idle (hs : s.rs ≠ .running) (hc : c = .step ∨ ∃ b, c = .run b)
    (h : CommandEnds cfg c s t r) : t = s ∧ r = report s.rs := by
  obtain rfl | ⟨_ | n, rfl⟩ := hc
  · obtain ⟨-, hidle⟩ := noStepOutsideRunning s hs
    exact Prod.mk.inj (h.symm.trans (hidle cfg))
  · exact RunEnds.idle h hs
  · exact Prod.mk.inj (h.symm.trans (hostRun_idle cfg n hs))

theorem hostLoad_memory_only (cfg : Config) (bytes : List Byte) (s : State) :
    (hostLoad cfg bytes s).1 = s.setMem (hostLoad cfg bytes s).1.mem := by
  unfold hostLoad; split <;> rfl

theorem hostRead_state (cfg : Config) (a : Word) (s : State) : (hostRead cfg a s).1 = s := by
  unfold hostRead; split <;> rfl

theorem hostWrite_memory_only (cfg : Config) (a : Word) (v : Byte) (s : State) :
    (hostWrite cfg a v s).1 = s.setMem (hostWrite cfg a v s).1.mem := by
  unfold hostWrite; split <;> rfl

/-- load, read and write keep the run state and every register. -/
theorem commandEnds_memory_only
    (hc : (∃ bytes, c = .load bytes) ∨ (∃ a, c = .read a) ∨ ∃ a v, c = .write a v)
    (h : CommandEnds cfg c s t r) : t = s.setMem t.mem := by
  obtain ⟨bytes, rfl⟩ | ⟨a, rfl⟩ | ⟨a, v, rfl⟩ := hc
  · obtain rfl := congrArg Prod.fst h
    exact hostLoad_memory_only cfg bytes s
  · obtain rfl : s = t := (hostRead_state cfg a s).symm.trans (congrArg Prod.fst h)
    rfl
  · obtain rfl := congrArg Prod.fst h
    exact hostWrite_memory_only cfg a v s

/-- Each command is step or run, or it touches memory only, or it contains a reset. -/
theorem command_cases (c : Command) :
    (c = .step ∨ ∃ b, c = .run b) ∨
      ((∃ bytes, c = .load bytes) ∨ (∃ a, c = .read a) ∨ ∃ a v, c = .write a v) ∨
      (c = .reset ∨ ∃ bytes, c = .loadAndRun bytes) := by
  cases c <;> simp

end

/-! ### The obligations -/

/-- Settles O48: the vector of a memory that is all zero is 0. -/
theorem resetStateIsResetAfterPowerOn : Obligations.ResetStateIsResetAfterPowerOn :=
  ⟨fun cfg => hostReset_eq cfg State.powerOn, fun _ => ⟨read_nil _, read_nil _⟩, rfl, rfl, rfl, rfl, rfl, rfl, rfl⟩

/-- Settles O49: both vector bytes are in range whatever the memory size, so the fault arm is never taken. -/
theorem resetCommandEffect : Obligations.ResetCommandEffect := by
  intro cfg s
  exact ⟨_, hostReset_eq cfg s, joinBytes_toNat _ _⟩

/-- Settles O50: the program bytes are written first and the vector's two bytes over them. -/
theorem loadPlacesProgramAndVector : Obligations.LoadPlacesProgramAndVector := by
  intro cfg bytes s hwf
  refine ⟨hostLoad_long s, fun hfits => ⟨_, hostLoad_fits s hfits, ?low, ?high, ?program, ?others⟩⟩
  case low => rw [read_loadMemory cfg bytes hwf, if_neg (by decide), if_pos rfl]
  case high => rw [read_loadMemory cfg bytes hwf, if_pos rfl]
  case program => exact fun k hk hC hD => read_loadMemory_program hwf hk hC hD
  case others => exact fun b hC hD hb => read_loadMemory_other hwf hC hD hb

/-- Settles O51: the second load writes the bytes that are there, and canonical memories with the same bytes are
equal. -/
theorem loadIsIdempotent : Obligations.LoadIsIdempotent := by
  intro cfg bytes s hwf
  obtain hlong | hfits := Nat.lt_or_ge cfg.memSize.bytes (0x8000 + bytes.length)
  · rw [hostLoad_long s hlong, hostLoad_long s hlong]
  · rw [hostLoad_fits s hfits, hostLoad_fits _ hfits, loadMemory_loadMemory hwf]

/-- Settles O52: the host's accesses are the byte accesses, with the fault turned into a refusal. -/
theorem hostReadAndWrite : Obligations.HostReadAndWrite := by
  intro cfg a v s hwf
  refine ⟨fun h => ⟨?read, _, ?write, read_write_same _ _ hwf, fun b hb => read_write_other _ _ _ hb⟩,
    fun h => ⟨?readRefused, ?writeRefused⟩⟩
  case read => simp only [hostRead, memRead_inRange _ h]
  case write => simp only [hostWrite, memWrite_inRange _ _ h]; rfl
  case readRefused => simp only [hostRead, memRead_outOfRange _ h]
  case writeRefused => simp only [hostWrite, memWrite_outOfRange _ _ h]

/-- Settles O53: step and run stand still outside Running, load, read and write touch memory only, and only a run
without a budget may fail to end. -/
theorem commandsInEachRunState : Obligations.CommandsInEachRunState := by
  intro cfg c s
  refine ⟨fun t r h => ⟨?reset, fun hs hc => commandEnds_step_or_run_idle hs hc h,
    fun hc => commandEnds_memory_only hc h, ?leaves, fun t' r' h' => h.unique h'⟩, ?ends⟩
  case reset =>
    rintro rfl
    obtain ⟨rfl, -⟩ := h
    exact hostReset_running cfg s
  case leaves =>
    intro hs hrs
    obtain hc | hc | hc := command_cases c
    · exact absurd (congrArg State.rs (commandEnds_step_or_run_idle hs hc h).1) hrs
    · exact absurd ((congrArg State.rs (commandEnds_memory_only hc h)).trans rfl) hrs
    · exact hc
  case ends =>
    intro hrun hload
    cases c with
    | load | step | read | write => exact ⟨_, _, rfl⟩
    | reset => exact ⟨_, _, rfl, rfl⟩
    | run budget =>
      cases budget with
      | none => exact ⟨s, report s.rs, 0, hostRun_idle cfg 0 (hrun rfl), report_ne_budgetExhausted _⟩
      | some n => exact ⟨_, _, rfl⟩
    | loadAndRun bytes => exact absurd rfl (hload bytes)

/-- Settles O54: `load` writes the vector that `reset` reads, and the run from there is one that O41 and O42 speak
of. -/
theorem loadAndRunStartsAtOrigin : Obligations.LoadAndRunStartsAtOrigin := by
  intro cfg bytes s hwf
  refine ⟨fun hfits t r => loadAndRunEnds_iff_of_wf hwf hfits, fun hlong t r => loadAndRunEnds_iff_of_long hlong,
    fun t r h => ?reply, fun hobs hreg => ?ends⟩
  case reply =>
    obtain hlong | hfits := Nat.lt_or_ge cfg.memSize.bytes (0x8000 + bytes.length)
    · exact .inl ((loadAndRunEnds_iff_of_long hlong).1 h).2
    · exact .inr (((loadAndRunEnds_iff_of_wf hwf hfits).1 h).halted_or_faulted_reply rfl)
  case ends =>
    obtain hlong | hfits := Nat.lt_or_ge cfg.memSize.bytes (0x8000 + bytes.length)
    · exact ⟨s, .loadTooLong, (loadAndRunEnds_iff_of_long hlong).2 ⟨rfl, rfl⟩⟩
    · obtain ⟨t, -, -, hends⟩ := everyRunEndsWithObservedMemory cfg _ hobs hreg (hostReset_running cfg _)
      exact ⟨t, _, (loadAndRunEnds_iff_of_fits hfits).2 hends⟩

end Sys2Proof.Machine
end

