-- ==== Sys2Proof/Proofs/Invariants.lean ====
section
/-! PROOFS. The invariant of 10_state.md section 3 and 60_exceptions.md section 1: a step keeps its four parts one
by one, each host command keeps it, and so every reachable state has it. -/

namespace Sys2Proof.Machine

section
variable {cfg : Config} {e : OpcodeEntry} {s t : State}

/-! ### What a step may do to each part of the invariant -/

theorem EntryDoes.mem_cases (h : EntryDoes cfg e s t) :
    t.mem = s.mem ∨ ∃ a v, inRange cfg a = true ∧ t.mem = s.mem.write a.toNat v := by
  cases h with
  | store a _ _ ha => exact .inr ⟨a, s.a, ha, rfl⟩
  | load | dataFault | resolverFault | tax | inx | brk => exact .inl rfl
  | tay => exact .inl (tay_mem cfg s)

theorem EntryDoes.status_cases (h : EntryDoes cfg e s t) : t.p = s.p ∨ ∃ v, t.p = znStatus s.p v := by
  cases h with
  | load | tax | inx => exact .inr ⟨_, rfl⟩
  | tay => rw [tay_eq]; exact .inr ⟨_, rfl⟩
  | store | dataFault | resolverFault | brk => exact .inl rfl

theorem stepWith_mem_cases (cfg : Config) (s : State) :
    (stepWith cfg s).mem = s.mem ∨
      ∃ a v, inRange cfg a = true ∧ (stepWith cfg s).mem = s.mem.write a.toNat v := by
  obtain ⟨e, -, hdoes⟩ | ⟨-, heq⟩ | ⟨-, -, f, heq, -⟩ := stepWith_cases cfg s
  · exact hdoes.mem_cases
  · exact .inl (by rw [heq])
  · exact .inl (by rw [heq, raise_mem])

theorem stepWith_status_cases (cfg : Config) (s : State) :
    (stepWith cfg s).p = s.p ∨ ∃ v, (stepWith cfg s).p = znStatus s.p v := by
  obtain ⟨e, -, hdoes⟩ | ⟨-, heq⟩ | ⟨-, -, f, heq, -⟩ := stepWith_cases cfg s
  · exact hdoes.status_cases
  · exact .inl (by rw [heq])
  · exact .inl (by rw [heq, raise_p])

theorem faultLegal_outOfRange {a : Word} (h : inRange cfg a = false) :
    faultLegal cfg (.faulted (.memoryOutOfRange a)) = true := by
  simp only [faultLegal, h, Bool.not_false]

/-- A fault that a step raises is one that its configuration can raise (R130). -/
theorem faultLegal_of_raised {f : Fault} (hrun : s.rs = .running) (hf : (stepWith cfg s).rs = .faulted f) :
    faultLegal cfg (.faulted f) = true := by
  obtain ⟨e, hfetch, -⟩ | ⟨hidle, -⟩ | ⟨-, -, g, heq, hcause⟩ := stepWith_cases cfg s
  · obtain ⟨-, hk, ⟨hmode, rfl⟩ | ⟨a, ha, rfl⟩⟩ := hfetch.fault_cause hf
    · obtain ⟨-, -, hl⟩ := hfetch
      have hreg : Registry.wf cfg.registry ≠ true :=
        fun hwf => mode_ne_noneAddressing_of_wf (entry_wf hwf hl) hk hmode
      simpa [faultLegal] using hreg
    · exact faultLegal_outOfRange ha
  · exact absurd hrun hidle
  · rw [heq] at hf
    obtain rfl : g = f := RunState.faulted.inj hf
    obtain ⟨hp, rfl⟩ | ⟨hl, rfl⟩ := hcause
    · exact faultLegal_outOfRange hp
    · simp only [faultLegal, hl, Option.isNone_none]

theorem stepWith_faultLegal (h : faultLegal cfg s.rs = true) : faultLegal cfg (stepWith cfg s).rs = true := by
  by_cases hrun : s.rs = .running
  · obtain ⟨-, hrs⟩ | hrs | ⟨f, hrs⟩ := stepWith_rs_cases (cfg := cfg) hrun
    · rw [hrs]; rfl
    · rw [hrs]; rfl
    · rw [hrs]; exact faultLegal_of_raised hrun hrs
  · rw [stepWith_idle hrun]; exact h

/-! ### The invariant under a step and under each command -/

/-- A write in range keeps the invariant, whatever else stays. -/
theorem State.Inv.write {a : Word} (h : s.Inv cfg) (v : Byte) (ha : inRange cfg a = true) :
    (s.setMem (s.mem.write a.toNat v)).Inv cfg :=
  ⟨write_wf h.memCanonical, write_below h.memBelow ((inRange_iff cfg a).1 ha), h.status, h.fault⟩

theorem State.Inv.afterStep (h : s.Inv cfg) : (stepWith cfg s).Inv cfg := by
  have hfault := stepWith_faultLegal h.fault
  have hstatus : statusLegal (stepWith cfg s).p = true := by
    obtain hp | ⟨v, hp⟩ := stepWith_status_cases cfg s
    · rw [hp]; exact h.status
    · rw [hp]; exact znStatus_legal v h.status
  obtain hm | ⟨a, v, ha, hm⟩ := stepWith_mem_cases cfg s
  · exact ⟨by rw [hm]; exact h.memCanonical, by rw [hm]; exact h.memBelow, hstatus, hfault⟩
  · have hw := h.write v ha
    exact ⟨by rw [hm]; exact hw.memCanonical, by rw [hm]; exact hw.memBelow, hstatus, hfault⟩

theorem State.Inv.afterRun (h : s.Inv cfg) (n : Nat) : (hostRun cfg n s).1.Inv cfg := by
  induction n generalizing s with
  | zero => exact h
  | succ n ih =>
    by_cases hs : s.rs = .running
    · rw [hostRun_succ cfg n hs]; exact ih h.afterStep
    · rw [hostRun_idle cfg _ hs]; exact h

theorem State.Inv.afterReset (h : s.Inv cfg) : (hostReset cfg s).Inv cfg := by
  rw [hostReset_eq]
  exact ⟨h.memCanonical, h.memBelow, rfl, rfl⟩

theorem loadMemory_below {bytes : List Byte} {m : Memory} (h : m.below cfg.memSize.bytes = true)
    (hfits : 0x8000 + bytes.length ≤ cfg.memSize.bytes) :
    (loadMemory cfg bytes m).below cfg.memSize.bytes = true := by
  have := bytes_ge cfg.memSize
  rw [loadMemory_eq]
  exact write_below (write_below (writeBytes_below h hfits) (by omega)) (by omega)

theorem State.Inv.afterLoad (h : s.Inv cfg) (bytes : List Byte) : (hostLoad cfg bytes s).1.Inv cfg := by
  obtain hlong | hfits := Nat.lt_or_ge cfg.memSize.bytes (0x8000 + bytes.length)
  · rw [hostLoad_long s hlong]; exact h
  · rw [hostLoad_fits s hfits]
    exact ⟨loadMemory_wf cfg bytes h.memCanonical, loadMemory_below h.memBelow hfits, h.status, h.fault⟩

theorem State.Inv.afterWrite (h : s.Inv cfg) (a : Word) (v : Byte) : (hostWrite cfg a v s).1.Inv cfg := by
  cases ha : inRange cfg a
  · simpa only [hostWrite, memWrite_outOfRange _ _ ha] using h
  · simpa only [hostWrite, memWrite_inRange _ _ ha] using h.write v ha

theorem State.Inv.afterRunEnds {r : Reply} (h : s.Inv cfg) (hr : RunEnds cfg s t r) : t.Inv cfg := by
  obtain ⟨n, hn, -⟩ := hr
  have hrun := h.afterRun n
  rwa [hn] at hrun

theorem State.Inv.afterLoadAndRun {bytes : List Byte} {r : Reply} (h : s.Inv cfg)
    (hr : LoadAndRunEnds cfg bytes s t r) : t.Inv cfg := by
  obtain hlong | hfits := Nat.lt_or_ge cfg.memSize.bytes (0x8000 + bytes.length)
  · obtain ⟨rfl, -⟩ := (loadAndRunEnds_iff_of_long hlong).1 hr
    exact h
  · exact (h.afterLoad bytes).afterReset.afterRunEnds ((loadAndRunEnds_iff_of_fits hfits).1 hr)

/-- The state a command's function answers. -/
theorem inv_of_answer {p : State × Reply} {r : Reply} (hp : p.1.Inv cfg) (heq : p = (t, r)) : t.Inv cfg := by
  rwa [heq] at hp

theorem State.Inv.afterCommand {c : Command} {r : Reply} (h : s.Inv cfg) (hc : CommandEnds cfg c s t r) :
    t.Inv cfg := by
  cases c with
  | load bytes => exact inv_of_answer (h.afterLoad bytes) hc
  | reset =>
    obtain ⟨rfl, -⟩ := hc
    exact h.afterReset
  | run budget =>
    cases budget with
    | none => exact h.afterRunEnds hc
    | some n => exact inv_of_answer (h.afterRun n) hc
  | loadAndRun => exact h.afterLoadAndRun hc
  | step => exact inv_of_answer h.afterStep hc
  | read a => exact inv_of_answer (by rwa [hostRead_state]) hc
  | write a v => exact inv_of_answer (h.afterWrite a v) hc

theorem Reachable.inv (h : Reachable cfg s) : s.Inv cfg := by
  induction h with
  | powerOn => exact ⟨rfl, rfl, rfl, rfl⟩
  | command c s t r _ hc ih => exact ih.afterCommand hc

end

/-! ### The obligations -/

/-- Settles O45: `step` is the executor at CFG_OBSERVED, whose step keeps each part. -/
theorem stepKeepsInvariant : Obligations.StepKeepsInvariant := by
  intro s t h hstep
  rw [stepFollowsExecutorPseudocode s] at hstep
  cases hstep
  exact h.afterStep

/-- Settles O46: the reset state is the reset command after power-on. -/
theorem resetMeetsInvariant : Obligations.ResetMeetsInvariant := by
  have hreset : hostReset cfgObserved State.powerOn = State.reset := hostReset_eq cfgObserved State.powerOn
  have hinv : (hostReset cfgObserved State.powerOn).Inv cfgObserved := Reachable.powerOn.inv.afterReset
  rwa [hreset] at hinv

/-- Settles O47: by induction over the commands; the invariant names the three values of P. -/
theorem reachableStatesMeetInvariant : Obligations.ReachableStatesMeetInvariant := by
  intro cfg s h
  refine ⟨h.inv, ?_⟩
  simpa [statusLegal, or_assoc] using h.inv.status

end Sys2Proof.Machine
end

