-- ==== Sys2Proof/Proofs/LoadForms.lean ====
section
/-! PROOFS. The obligation of 40_addressing_modes.md section 3 and those of 42_load_accumulator.md section 2: LDA at
an address under CFG_OBSERVED, the eight forms, their frame. -/

namespace Sys2Proof.Machine

/-! ### An address under CFG_OBSERVED -/

theorem inRange_observed_of_ne {w : Word} (h : w.toNat ≠ 0xFFFF) : inRange cfgObserved w = true := by
  have := w.isLt
  rw [inRange_observed]; omega

theorem eq_top_of_toNat {w : Word} (h : w.toNat = 0xFFFF) : w = 0xFFFF := BitVec.eq_of_toNat_eq h

theorem top_outOfRange : inRange cfgObserved 0xFFFF = false := by decide

/-! ### LDA at an address -/

section
variable {i : Instr} {s t : State} {w : Word} {len : InstrLen}

/-- A form whose meaning is LDA at `w` completes, or it faults at the one address that is not there. -/
theorem exec_load_at (h : exec i s = .next (lda cfgObserved (.ok w) len s)) :
    (w.toNat ≠ 0xFFFF → exec i s = .next { s with
      a := s.mem.read w.toNat, p := znStatus s.p (s.mem.read w.toNat), pc := s.pc + BitVec.ofNat 16 (len.bytes - 1) }) ∧
    (w.toNat = 0xFFFF → exec i s = .next { s with rs := .faulted (.memoryOutOfRange 0xFFFF) }) := by
  refine ⟨fun hne => ?_, fun heq => ?_⟩
  · rw [h, lda_inRange (inRange_observed_of_ne hne), loadA_eq]
  · rw [h, eq_top_of_toNat heq, lda_outOfRange top_outOfRange]; rfl

/-- Every LDA instruction loads a byte or faults (R100 to R108). -/
theorem exec_load_cases (hk : i.kind = .lda) (h : exec i s = .next t) :
    (∃ v len, t = loadA v len s) ∨ ∃ f, t = raise f s := by
  by_cases himm : i.mode = .immediate
  · cases i <;> cases himm
    cases h
    exact .inl ⟨_, _, rfl⟩
  · rw [exec_load hk himm] at h
    obtain rfl := Host.Outcome.next.inj h
    obtain ⟨a, -, -, heq⟩ | ⟨a, -, -, heq⟩ | ⟨f, -, heq⟩ := lda_cases cfgObserved (instrAddress i s) (instrLen i) s
    · exact .inl ⟨_, _, heq⟩
    · exact .inr ⟨_, heq⟩
    · exact .inr ⟨f, heq⟩

end

/-! ### The obligations -/

/-- Settles O8: a fault that is not the mode's names an address out of range, and the full memory has none. -/
theorem resolverFaultsOnlyByModeOrRange : Obligations.ResolverFaultsOnlyByModeOrRange := by
  intro cfg m mode pc1 x y
  refine ⟨fun hfull hmode => ?answers, fun h => ?onlyNone, fun hmode => by rw [hmode]; rfl⟩
  case answers =>
    cases hr : resolve cfg m mode pc1 x y with
    | ok ea => exact ⟨ea, rfl⟩
    | error f =>
      obtain ⟨a, ha, -⟩ := resolve_error_of_operandMode hmode hr
      obtain ⟨hobs, -⟩ := (not_inRange_iff cfg a).1 ha
      rw [hfull] at hobs; cases hobs
  case onlyNone =>
    obtain ⟨hmode, -⟩ | ⟨a, -, hrange⟩ := resolve_error h
    · exact hmode
    · cases hrange

/-- Settles O15: the value is the operand, or a byte of the zero page, which is always in range. -/
theorem loadImmediateAndZeroPageForms : Obligations.LoadImmediateAndZeroPageForms := by
  intro d8 s zp zpx
  have atZeroPage (b : Byte) : lda cfgObserved (.ok (zext16 b)) .two s =
      { s with a := s.mem.read b.toNat, p := znStatus s.p (s.mem.read b.toNat), pc := s.pc + 1 } := by
    rw [lda_inRange (inRange_zext16 cfgObserved b), zext16_toNat, loadA_eq]; rfl
  refine ⟨rfl, congrArg Host.Outcome.next (atZeroPage d8), ?indexed⟩
  case indexed =>
    have hsum : (d8 + s.x).toNat = (d8.toNat + s.x.toNat) % 256 := BitVec.toNat_add ..
    have h := atZeroPage (d8 + s.x)
    rw [hsum] at h
    exact congrArg Host.Outcome.next h

/-- Settles O16: each form is LDA at the address its operand and index give. -/
theorem loadAbsoluteForms : Obligations.LoadAbsoluteForms := by
  intro a16 s i ea hform
  obtain ⟨w, hexec, rfl⟩ : ∃ w : Word, exec i s = .next (lda cfgObserved (.ok w) .three s) ∧ w.toNat = ea := by
    obtain ⟨rfl, rfl⟩ | ⟨rfl, rfl⟩ | ⟨rfl, rfl⟩ := hform
    · exact ⟨a16, rfl, rfl⟩
    · exact ⟨_, rfl, eaAbsoluteIndexed_toNat a16 s.x⟩
    · exact ⟨_, rfl, eaAbsoluteIndexed_toNat a16 s.y⟩
  exact exec_load_at hexec

/-- Settles O17: the pointer is always read, so each form is LDA at the word it holds, with Y added or not. -/
theorem loadIndirectForms : Obligations.LoadIndirectForms := by
  intro d8 s i ea word hform
  obtain ⟨w, hexec, rfl⟩ : ∃ w : Word, exec i s = .next (lda cfgObserved (.ok w) .two s) ∧ w.toNat = ea := by
    obtain ⟨rfl, rfl⟩ | ⟨rfl, rfl⟩ := hform
    · exact ⟨_, congrArg (fun r => Host.Outcome.next (lda cfgObserved r .two s)) (eaIndirectX_eq ..),
        pointerX_toNat ..⟩
    · exact ⟨_, congrArg (fun r => Host.Outcome.next (lda cfgObserved r .two s)) (eaIndirectY_eq ..),
        pointerY_toNat ..⟩
  exact exec_load_at hexec

/-- Settles O21: a load writes A, P and PC, a fault RS. -/
theorem loadFrame : Obligations.LoadFrame := by
  intro i s t hk h
  obtain ⟨v, len, rfl⟩ | ⟨f, rfl⟩ := exec_load_cases hk h
  · exact ⟨rfl, rfl, sameOtherStatusBits_znStatus _ _, fun _ => rfl, .inl rfl⟩
  · exact ⟨rfl, rfl, sameOtherStatusBits_refl _, fun _ => rfl, .inr ⟨f, rfl, rfl, rfl, rfl⟩⟩

end Sys2Proof.Machine
end

