-- ==== Sys2Proof/Proofs/StoreForms.lean ====
section
/-! PROOFS. The obligations of 43_store_accumulator.md section 2: STA at an address under CFG_OBSERVED, the seven
forms, their frame. -/

namespace Sys2Proof.Machine

section
variable {i : Instr} {s : State} {w : Word} {len : InstrLen}

/-! ### STA at an address -/

theorem exec_store_inRange (hwf : s.mem.wf = true) (h : exec i s = .next (sta cfgObserved (.ok w) len s))
    (hin : inRange cfgObserved w = true) :
    ∃ m', exec i s = .next { s with mem := m', pc := s.pc + BitVec.ofNat 16 (len.bytes - 1) } ∧
      m'.read w.toNat = s.a ∧ ∀ b, b ≠ w.toNat → m'.read b = s.mem.read b := by
  rw [h, sta_inRange hin]
  exact ⟨_, rfl, read_write_same _ _ hwf, fun _ hb => read_write_other _ _ _ hb⟩

/-- A form whose meaning is STA at `w` completes, or it faults at the one address that is not there. -/
theorem exec_store_at (hwf : s.mem.wf = true) (h : exec i s = .next (sta cfgObserved (.ok w) len s)) :
    (w.toNat ≠ 0xFFFF →
      ∃ m', exec i s = .next { s with mem := m', pc := s.pc + BitVec.ofNat 16 (len.bytes - 1) } ∧
        m'.read w.toNat = s.a ∧ ∀ b, b ≠ w.toNat → m'.read b = s.mem.read b) ∧
    (w.toNat = 0xFFFF → exec i s = .next { s with rs := .faulted (.memoryOutOfRange 0xFFFF) }) := by
  refine ⟨fun hne => exec_store_inRange hwf h (inRange_observed_of_ne hne), fun heq => ?_⟩
  rw [h, eq_top_of_toNat heq, sta_outOfRange top_outOfRange]; rfl

/-- The address of each STA form is always given, and it is the one `storeAddress` names. -/
theorem instrAddress_store (hk : i.kind = .sta) (s : State) :
    ∃ ea, instrAddress i s = .ok ea ∧ storeAddress i s = some ea := by
  cases i with
  | staZp | staZpX | staAbs | staAbsX | staAbsY => exact ⟨_, rfl, rfl⟩
  | staIndX d8 => exact ⟨_, eaIndirectX_eq .., by rw [storeAddress, eaIndirectX_eq]; rfl⟩
  | staIndY d8 => exact ⟨_, eaIndirectY_eq .., by rw [storeAddress, eaIndirectY_eq]; rfl⟩
  | brk | tay | tax | inx => cases hk
  | ldaIndX | ldaZp | ldaImm | ldaAbs | ldaIndY | ldaZpX | ldaAbsY | ldaAbsX => cases hk

end

/-! ### The obligations -/

/-- Settles O18: the address is in the zero page, which is always in range. -/
theorem storeZeroPageForms : Obligations.StoreZeroPageForms := by
  intro d8 s i ea hwf hform
  obtain ⟨b, hexec, rfl⟩ :
      ∃ b : Byte, exec i s = .next (sta cfgObserved (.ok (zext16 b)) .two s) ∧ (zext16 b).toNat = ea := by
    obtain ⟨rfl, rfl⟩ | ⟨rfl, rfl⟩ := hform
    · exact ⟨d8, rfl, eaZeroPage_toNat d8⟩
    · exact ⟨d8 + s.x, rfl, eaZeroPageIndexed_toNat d8 s.x⟩
  exact exec_store_inRange hwf hexec (inRange_zext16 cfgObserved b)

/-- Settles O19: each form is STA at the address its operand and index give. -/
theorem storeAbsoluteForms : Obligations.StoreAbsoluteForms := by
  intro a16 s i ea hwf hform
  obtain ⟨w, hexec, rfl⟩ : ∃ w : Word, exec i s = .next (sta cfgObserved (.ok w) .three s) ∧ w.toNat = ea := by
    obtain ⟨rfl, rfl⟩ | ⟨rfl, rfl⟩ | ⟨rfl, rfl⟩ := hform
    · exact ⟨a16, rfl, rfl⟩
    · exact ⟨_, rfl, eaAbsoluteIndexed_toNat a16 s.x⟩
    · exact ⟨_, rfl, eaAbsoluteIndexed_toNat a16 s.y⟩
  exact exec_store_at hwf hexec

/-- Settles O20: the pointer is read from the memory before the store, so each form is STA at the word it held. -/
theorem storeIndirectForms : Obligations.StoreIndirectForms := by
  intro d8 s i ea hwf word hform
  obtain ⟨w, hexec, rfl⟩ : ∃ w : Word, exec i s = .next (sta cfgObserved (.ok w) .two s) ∧ w.toNat = ea := by
    obtain ⟨rfl, rfl⟩ | ⟨rfl, rfl⟩ := hform
    · exact ⟨_, congrArg (fun r => Host.Outcome.next (sta cfgObserved r .two s)) (eaIndirectX_eq ..),
        pointerX_toNat ..⟩
    · exact ⟨_, congrArg (fun r => Host.Outcome.next (sta cfgObserved r .two s)) (eaIndirectY_eq ..),
        pointerY_toNat ..⟩
  exact exec_store_at hwf hexec

/-- Settles O22: a store writes one byte, at the one address `storeAddress` names, and PC; a fault writes RS. -/
theorem storeFrame : Obligations.StoreFrame := by
  intro i s t hk h
  obtain ⟨ea, hea, hstore⟩ := instrAddress_store hk s
  rw [exec_store hk, hea] at h
  obtain rfl := Host.Outcome.next.inj h
  cases hin : inRange cfgObserved ea
  · rw [sta_outOfRange hin]
    exact ⟨rfl, rfl, rfl, rfl, ⟨ea, hstore⟩, fun _ _ _ _ => rfl, .inr ⟨_, rfl, rfl, fun _ => rfl⟩⟩
  · rw [sta_inRange hin]
    refine ⟨rfl, rfl, rfl, rfl, ⟨ea, hstore⟩, fun ea' hea' b hb => ?_, .inl rfl⟩
    obtain rfl : ea = ea' := Option.some.inj (hstore.symm.trans hea')
    exact read_write_other _ _ _ hb

end Sys2Proof.Machine
end

