-- ==== Sys2Proof/Proofs/RegisterOps.lean ====
section
/-! PROOFS. The obligations of 44_register_ops.md and 45_halt.md: the transfers, the increment and the halt as
updates of the state, the flags of an increment, the frame of the four. -/

namespace Sys2Proof.Machine

/-! ### The four operations as updates of the state -/

section
variable {cfg : Config} {s : State}

theorem tay_eq_fromX (h : cfg.tayFlagSource = .fromX) : tay cfg s = { s with y := s.a, p := znStatus s.p s.x } := by
  rw [tay_eq, h]; rfl

theorem tay_eq_fromY (h : cfg.tayFlagSource = .fromY) : tay cfg s = { s with y := s.a, p := znStatus s.p s.a } := by
  rw [tay_eq, h]; rfl

end

/-! ### The flags of an increment -/

theorem succ_eq_zero_iff (x : Byte) : x + 1 = 0 ↔ x = 0xFF := by
  have := x.isLt
  have h0 : (0 : Byte).toNat = 0 := rfl
  have hFF : (0xFF : Byte).toNat = 0xFF := rfl
  rw [← BitVec.toNat_inj, ← BitVec.toNat_inj, byteSucc_toNat, h0, hFF]
  omega

/-- Bit 7 of a byte as a bound on its number. -/
theorem getLsbD_seven (b : Byte) : b.getLsbD 7 = decide (0x80 ≤ b.toNat) := BitVec.msb_eq_decide b

theorem succ_getLsbD_seven (x : Byte) :
    (x + 1).getLsbD 7 = decide (0x7F ≤ x.toNat ∧ x.toNat ≤ 0xFE) := by
  have := x.isLt
  rw [getLsbD_seven, byteSucc_toNat, decide_eq_decide]
  omega

/-! ### The obligations -/

/-- Settles O11: TAX is SetZN of A after X takes A, whatever the entry. -/
theorem transferToX : Obligations.TransferToX := by
  intro s
  exact ⟨⟨_, rfl, znStatus_flagBits s.a⟩, fun cfg e hk => congrArg Host.Outcome.next (execEntry_tax hk).symm,
    decode_encode .tax⟩

/-- Settles O12: the two flag sources, one case each; the instruction is the observed one. -/
theorem transferToY : Obligations.TransferToY := by
  intro s
  refine ⟨⟨_, rfl, znStatus_flagBits s.x⟩, fun cfg e hk => ?entry⟩
  case entry =>
    rw [execEntry_tay hk]
    cases hsrc : cfg.tayFlagSource with
    | fromX =>
      obtain ⟨hz, hn, hother⟩ := znStatus_flagBits (s := s) s.x
      exact ⟨_, tay_eq_fromX hsrc, hother, fun _ => ⟨hz, hn⟩, nofun⟩
    | fromY =>
      obtain ⟨hz, hn, hother⟩ := znStatus_flagBits (s := s) s.a
      exact ⟨_, tay_eq_fromY hsrc, hother, nofun, fun _ => ⟨hz, hn⟩⟩

/-- Settles O13: SetZN of X plus 1, with its two conditions put in terms of the old X. -/
theorem incrementX : Obligations.IncrementX := by
  intro s
  obtain ⟨hz, hn, hother⟩ := znStatus_flagBits (s := s) (s.x + 1)
  refine ⟨⟨s.x + 1, znStatus s.p (s.x + 1), rfl, byteSucc_toNat s.x, ?zero, ?negative, hother⟩,
    fun cfg e hk => congrArg Host.Outcome.next (execEntry_inx hk).symm, decode_encode .inx⟩
  case zero => rw [hz, decide_eq_decide]; exact succ_eq_zero_iff s.x
  case negative => rw [hn]; exact succ_getLsbD_seven s.x

/-- Settles O14: BRK sets RS, and the step adds only the advance past its byte. -/
theorem haltChangesOnlyRunState : Obligations.HaltChangesOnlyRunState := by
  intro s
  refine ⟨rfl, fun cfg e hk => execEntry_brk hk, fun cfg e hk hfetch => ?step, decode_encode .brk⟩
  case step => rw [hfetch.stepWith_eq, execEntry_brk hk]; rfl

/-- Settles O23: each of the four writes the fields its rule names (R120 to R125). -/
theorem registerAndHaltFrame : Obligations.RegisterAndHaltFrame := by
  intro i s t hi h
  obtain rfl | rfl | rfl | rfl := hi <;> obtain rfl := Host.Outcome.next.inj h
  case inl => exact ⟨rfl, rfl, fun _ => rfl, by simp, fun _ => rfl, fun _ => rfl,
    sameOtherStatusBits_znStatus _ _, nofun⟩
  case inr.inl => exact ⟨tay_a _ s, tay_pc _ s, fun _ => rfl, fun _ => tay_x _ s, by simp, fun _ => tay_rs _ s,
    sameOtherStatusBits_tay _ s, nofun⟩
  case inr.inr.inl => exact ⟨rfl, rfl, fun _ => rfl, by simp, fun _ => rfl, fun _ => rfl,
    sameOtherStatusBits_znStatus _ _, nofun⟩
  case inr.inr.inr => exact ⟨rfl, rfl, fun _ => rfl, fun _ => rfl, fun _ => rfl, by simp,
    sameOtherStatusBits_refl _, fun _ => rfl⟩

end Sys2Proof.Machine
end
